-- ==== Sys2Proof/Word.lean ====
section
/-! DEFINITION. The 64-bit signed value that every cell, register, queue entry and log entry holds
(spec/00_scope.md R5: `XLEN` = 64, two's complement), and the range test `fits`. -/

namespace Sys2Proof

/-- One `XLEN`-bit datum (R5, R11). The machine sees it only as the signed integer `toInt`; no rule
takes it apart into bits (log 8). -/
abbrev Word := BitVec 64

/-- `MIN_INT` of R5. -/
def minInt : Int := -9223372036854775808

/-- `MAX_INT` of R5. -/
def maxInt : Int := 9223372036854775807

/-- `fits(v)` of 00_scope.md section 5.2: the integer is the value of some cell. -/
abbrev fits (v : Int) : Prop := minInt ≤ v ∧ v ≤ maxInt

end Sys2Proof
end

