-- ==== Sys2Proof/Syntax.lean ====
section
/-! DEFINITION. The ten instructions of spec/opcode_table.json and the operands they carry. -/

namespace Sys2Proof

/-- An operand: a raw parameter together with its addressing mode, "a tagged value, one of
Direct(address), Immediate(value), Relative(offset)" (20_memory.md R36). -/
inductive Operand where
  | direct (address : Word)
  | immediate (value : Word)
  | relative (offset : Word)
deriving DecidableEq, Repr

/-- The closed set of ten instruction kinds (30_encoding.md R52), operands in parameter order. A
parameter named `dst` is the destination of R52; all others are sources. -/
inductive Instr where
  | add (a b dst : Operand)
  | mul (a b dst : Operand)
  | input (dst : Operand)
  | output (a : Operand)
  | jumpIfTrue (a b : Operand)
  | jumpIfFalse (a b : Operand)
  | lessThan (a b dst : Operand)
  | equals (a b dst : Operand)
  | adjustRelativeBase (a : Operand)
  | halt
deriving DecidableEq, Repr

end Sys2Proof
end

