-- ==== Sys2Proof/WellFormed.lean ====
section
/-! DEFINITION. Which terms of `Instr` stand for an instruction of the machine: those whose
destination operand is not Immediate (spec/20_memory.md R40, 30_encoding.md R56). -/

namespace Sys2Proof

/-- An operand that may name the cell to write: Direct or Relative (R39, R40). -/
def Operand.isDestination : Operand → Bool
  | .direct _ => true
  | .immediate _ => false
  | .relative _ => true

/-- The destination slots of R40: parameter 3 of Add, Mul, LessThan and Equals, and parameter 1 of
Input. The operand of AdjustRelativeBase is a source (90_conflicts.md C1). -/
def Instr.wellFormed : Instr → Bool
  | .add _ _ dst => dst.isDestination
  | .mul _ _ dst => dst.isDestination
  | .input dst => dst.isDestination
  | .output _ => true
  | .jumpIfTrue _ _ => true
  | .jumpIfFalse _ _ => true
  | .lessThan _ _ dst => dst.isDestination
  | .equals _ _ dst => dst.isDestination
  | .adjustRelativeBase _ => true
  | .halt => true

end Sys2Proof
end

