-- ==== Sys2Proof/Decode.lean ====
section
/-! DEFINITION. The decoder (spec/30_encoding.md R50 to R59), total on any sequence of cells and
rejecting by name, and after it the encoder, written from the same tables. The encoding is decimal:
fields are decimal digits of the instruction word. -/

namespace Sys2Proof

/-- The three addressing modes (20_memory.md R36). -/
inductive Mode where
  | direct
  | immediate
  | relative
deriving DecidableEq, Repr

/-- "Digit 0 = Direct, 1 = Immediate, 2 = Relative. Any other digit ... fails" (R55). -/
def Mode.ofDigit : Nat → Option Mode
  | 0 => some .direct
  | 1 => some .immediate
  | 2 => some .relative
  | _ => none

/-- The mode digit of R36. -/
def Mode.digit : Mode → Nat
  | .direct => 0
  | .immediate => 1
  | .relative => 2

/-- Pairing a parameter with its mode forms the operand (R57). -/
def Mode.operand : Mode → Word → Operand
  | .direct, p => .direct p
  | .immediate, p => .immediate p
  | .relative, p => .relative p

/-- The ten opcodes (R52). -/
inductive Opcode where
  | add
  | mul
  | input
  | output
  | jumpIfTrue
  | jumpIfFalse
  | lessThan
  | equals
  | adjustRelativeBase
  | halt
deriving DecidableEq, Repr

/-- The opcode map of R52, read from the two low decimal digits; any other value is no opcode (R54). -/
def Opcode.ofCode : Nat → Option Opcode
  | 1 => some .add
  | 2 => some .mul
  | 3 => some .input
  | 4 => some .output
  | 5 => some .jumpIfTrue
  | 6 => some .jumpIfFalse
  | 7 => some .lessThan
  | 8 => some .equals
  | 9 => some .adjustRelativeBase
  | 99 => some .halt
  | _ => none

/-- The opcode field of R52. -/
def Opcode.code : Opcode → Nat
  | .add => 1
  | .mul => 2
  | .input => 3
  | .output => 4
  | .jumpIfTrue => 5
  | .jumpIfFalse => 6
  | .lessThan => 7
  | .equals => 8
  | .adjustRelativeBase => 9
  | .halt => 99

/-- The number of parameters (R52). -/
def Opcode.arity : Opcode → Nat
  | .add => 3
  | .mul => 3
  | .input => 1
  | .output => 1
  | .jumpIfTrue => 2
  | .jumpIfFalse => 2
  | .lessThan => 3
  | .equals => 3
  | .adjustRelativeBase => 1
  | .halt => 0

/-- Why the decoder refuses. The machine reports `missingParameter` and `noInstructionWord` as
`AddressOutOfBound` of the cell that could not be fetched, every other refusal as
`InvalidInstruction` of the whole word (R58). -/
inductive DecodeError where
  /-- There is no cell to read an instruction word from (R71). -/
  | noInstructionWord
  /-- The word is negative or has more than five digits (R53). -/
  | wordOutOfRange
  /-- The opcode field is not in the table (R54). -/
  | unknownOpcode
  /-- The mode digit of this slot is above 2 (R55 a). -/
  | illegalModeDigit (slot : Nat)
  /-- A nonzero mode digit in a slot beyond the arity (R55 b). -/
  | unusedSlotDigit (slot : Nat)
  /-- The destination slot has mode digit 1 (R56). -/
  | immediateDestination
  /-- Parameter `k` lies beyond the cells there are (R57). -/
  | missingParameter (k : Nat)
deriving DecidableEq, Repr

/-- What an instruction word says: the operation and the three mode slots, Direct where the opcode
has no such slot. -/
structure Header where
  op : Opcode
  m1 : Mode
  m2 : Mode
  m3 : Mode
deriving DecidableEq, Repr

/-- `digit_k(w)`: the decimal digit of weight 10^k (00_scope.md section 5.2). -/
def decimalDigit (k n : Nat) : Nat := n / 10 ^ k % 10

/-- The check of one mode slot, R55 (a) then (b). -/
def decodeSlot (op : Opcode) (slot digit : Nat) : Except DecodeError Mode :=
  match Mode.ofDigit digit with
  | none => .error (.illegalModeDigit slot)
  | some m => if op.arity < slot ∧ m ≠ .direct then .error (.unusedSlotDigit slot) else .ok m

/-- The mode of the destination slot, if the opcode has one (R52, R56). -/
def Header.destinationMode (h : Header) : Option Mode :=
  match h.op with
  | .add => some h.m3
  | .mul => some h.m3
  | .input => some h.m1
  | .output => none
  | .jumpIfTrue => none
  | .jumpIfFalse => none
  | .lessThan => some h.m3
  | .equals => some h.m3
  | .adjustRelativeBase => none
  | .halt => none

/-- The legality checks R53 to R56 on an instruction word, in the order of R58. The word is read as
a non-negative decimal number once R53 has passed. -/
def decodeHeader (w : Word) : Except DecodeError Header :=
  if w.toInt < 0 ∨ 100000 ≤ w.toInt then .error .wordOutOfRange
  else
    match Opcode.ofCode (w.toNat % 100) with
    | none => .error .unknownOpcode
    | some op => do
      let m1 ← decodeSlot op 1 (decimalDigit 2 w.toNat)
      let m2 ← decodeSlot op 2 (decimalDigit 3 w.toNat)
      let m3 ← decodeSlot op 3 (decimalDigit 4 w.toNat)
      let h : Header := { op := op, m1 := m1, m2 := m2, m3 := m3 }
      if h.destinationMode = some .immediate then .error .immediateDestination else .ok h

/-- The instruction a legal word and its parameters form (R57); parameters beyond the arity are not
looked at. -/
def Header.instr (h : Header) (p1 p2 p3 : Word) : Instr :=
  match h.op with
  | .add => .add (h.m1.operand p1) (h.m2.operand p2) (h.m3.operand p3)
  | .mul => .mul (h.m1.operand p1) (h.m2.operand p2) (h.m3.operand p3)
  | .input => .input (h.m1.operand p1)
  | .output => .output (h.m1.operand p1)
  | .jumpIfTrue => .jumpIfTrue (h.m1.operand p1) (h.m2.operand p2)
  | .jumpIfFalse => .jumpIfFalse (h.m1.operand p1) (h.m2.operand p2)
  | .lessThan => .lessThan (h.m1.operand p1) (h.m2.operand p2) (h.m3.operand p3)
  | .equals => .equals (h.m1.operand p1) (h.m2.operand p2) (h.m3.operand p3)
  | .adjustRelativeBase => .adjustRelativeBase (h.m1.operand p1)
  | .halt => .halt

/-- `Header.instr` on a list of parameters, which holds as many as the arity asks for. -/
def Header.instrOf (h : Header) (ps : List Word) : Instr :=
  h.instr (ps.getD 0 0#64) (ps.getD 1 0#64) (ps.getD 2 0#64)

/-- The decoder on a sequence of cells: the instruction and the cells after it, or the reason of the
refusal (R58). -/
def decode : List Word → Except DecodeError (Instr × List Word)
  | [] => .error .noInstructionWord
  | w :: rest =>
    match decodeHeader w with
    | .error e => .error e
    | .ok h =>
      if rest.length < h.op.arity then .error (.missingParameter (rest.length + 1))
      else .ok (h.instrOf (rest.take h.op.arity), rest.drop h.op.arity)

/-- The opcode of an instruction (R52). -/
def Instr.opcode : Instr → Opcode
  | .add _ _ _ => .add
  | .mul _ _ _ => .mul
  | .input _ => .input
  | .output _ => .output
  | .jumpIfTrue _ _ => .jumpIfTrue
  | .jumpIfFalse _ _ => .jumpIfFalse
  | .lessThan _ _ _ => .lessThan
  | .equals _ _ _ => .equals
  | .adjustRelativeBase _ => .adjustRelativeBase
  | .halt => .halt

/-- The operands in parameter order (R52). -/
def Instr.operands : Instr → List Operand
  | .add a b dst => [a, b, dst]
  | .mul a b dst => [a, b, dst]
  | .input dst => [dst]
  | .output a => [a]
  | .jumpIfTrue a b => [a, b]
  | .jumpIfFalse a b => [a, b]
  | .lessThan a b dst => [a, b, dst]
  | .equals a b dst => [a, b, dst]
  | .adjustRelativeBase a => [a]
  | .halt => []

/-- The mode of an operand (R36). -/
def Operand.mode : Operand → Mode
  | .direct _ => .direct
  | .immediate _ => .immediate
  | .relative _ => .relative

/-- The raw parameter of an operand (R57). -/
def Operand.param : Operand → Word
  | .direct p => p
  | .immediate p => p
  | .relative p => p

/-- The mode digits from the first slot on, least significant first, as a decimal number; slots that
are not there count 0 (R50). -/
def modeDigits : List Operand → Nat
  | [] => 0
  | o :: os => o.mode.digit + 10 * modeDigits os

/-- The instruction word `m3*10000 + m2*1000 + m1*100 + opcode` (R50). -/
def Instr.word (i : Instr) : Nat := 100 * modeDigits i.operands + i.opcode.code

/-- The cells of an instruction: its word, then its parameters (R50, R51). -/
def encode (i : Instr) : List Word := BitVec.ofNat 64 i.word :: i.operands.map Operand.param

/-- The length of an instruction in cells, `1 + arity` (R61). -/
def Instr.length (i : Instr) : Nat := 1 + i.opcode.arity

/-- The words of format F3 with destination p3, above the opcode field (`legal_words` of
spec/opcode_table.json for Add, Mul, LessThan, Equals). -/
def legalModesStore : List Nat :=
  [0, 1, 2, 10, 11, 12, 20, 21, 22] ++ [200, 201, 202, 210, 211, 212, 220, 221, 222]

/-- The words of format F2, above the opcode field. -/
def legalModesJump : List Nat := [0, 1, 2, 10, 11, 12, 20, 21, 22]

/-- `legal_words` of spec/opcode_table.json, row by row. -/
def Opcode.legalWords : Opcode → List Nat
  | .add => legalModesStore.map (fun m => 100 * m + 1)
  | .mul => legalModesStore.map (fun m => 100 * m + 2)
  | .input => [3, 203]
  | .output => [4, 104, 204]
  | .jumpIfTrue => legalModesJump.map (fun m => 100 * m + 5)
  | .jumpIfFalse => legalModesJump.map (fun m => 100 * m + 6)
  | .lessThan => legalModesStore.map (fun m => 100 * m + 7)
  | .equals => legalModesStore.map (fun m => 100 * m + 8)
  | .adjustRelativeBase => [9, 109, 209]
  | .halt => [99]

/-- The ten opcodes in the order of the table. -/
def Opcode.all : List Opcode :=
  [.add, .mul, .input, .output, .jumpIfTrue, .jumpIfFalse, .lessThan, .equals,
    .adjustRelativeBase, .halt]

/-- Every legal instruction word (R59). -/
def legalWords : List Nat := Opcode.all.flatMap Opcode.legalWords

/-- The cells that a bit string of `nbits` bits stands for, numbered as spec/opcode_table.json's
reader numbers bits: 64 bits a cell, the first cell lowest; bits at or above `nbits` are 0 (log 10). -/
def tableCells (nbits w : Nat) : List Word :=
  let bits := w % 2 ^ nbits
  [BitVec.ofNat 64 bits, BitVec.ofNat 64 (bits / 2 ^ 64), BitVec.ofNat 64 (bits / 2 ^ 128),
    BitVec.ofNat 64 (bits / 2 ^ 192)]

/-- The instruction the decoder reads from a table word (the host's interface to the decoder). -/
def decodeTableWord (nbits w : Nat) : Option Instr :=
  match decode (tableCells nbits w) with
  | .ok (i, _) => some i
  | .error _ => none

end Sys2Proof
end

