-- ==== Sys2Proof/Config.lean ====
section
/-! DEFINITION. The engine's one open parameter, the memory capacity `CAP`
(spec/00_scope.md R5, 92_eei_decisions.md D3). There is no free value: the spec leaves no result open. -/

namespace Sys2Proof

/-- An implementation of the engine: its capacity, with the constraint 1 ≤ CAP ≤ 2^62 of R5 carried
as proof, so that no capacity outside it can be written down (log 2). -/
structure Config where
  cap : Nat
  cap_pos : 1 ≤ cap
  cap_le : cap ≤ 2 ^ 62
deriving DecidableEq, Repr

/-- The default of R5, used by every test vector that names no other: 65536 cells. -/
def Config.standard : Config := { cap := 65536, cap_pos := by decide, cap_le := by decide }

end Sys2Proof
end

