-- ==== Sys2Proof/Machine/State.lean ====
section
/-! DEFINITION. The state of one engine instance (spec/10_state.md), plain data, and its reset value. -/

namespace Sys2Proof.Machine

/-- Memory as the list of the cells that hold a nonzero value, each with its address. A cell that is
not listed holds 0, which is what reset leaves in it (10_state.md R22; log 1). -/
abbrev Memory := List (Nat × Word)

/-- Canonical from address `lo` on: addresses strictly rise, none is below `lo`, and no listed cell
holds 0, the value of an unlisted one. -/
def Memory.wfFrom : Nat → Memory → Bool
  | _, [] => true
  | lo, (a, v) :: m => decide (lo ≤ a) && decide (v ≠ 0#64) && Memory.wfFrom (a + 1) m

/-- The canonical form: equal memories are equal lists. -/
def Memory.wf (m : Memory) : Bool := Memory.wfFrom 0 m

/-- Every listed cell lies below the capacity (R11: `mem` is indexed 0 .. CAP-1). -/
def Memory.below (cap : Nat) (m : Memory) : Bool := m.all (fun c => decide (c.1 < cap))

/-- The control and status register (R18). -/
inductive Status where
  | running
  | halted
  | waitingForInput
  | faulted
deriving DecidableEq, Repr

/-- The kind in the fault latch (R19). -/
inductive Cause where
  | none
  | addressOutOfBound
  | invalidInstruction
  | arithmeticOverflow
deriving DecidableEq, Repr

/-- One engine instance: the tuple (mem, ip, rb, inq, outlog, status, cause, info) of
spec/10_state.md, beside the configuration it was built with. -/
structure State where
  /-- The capacity; no step and no transaction changes it (R5; log 2). -/
  cfg : Config
  /-- R11. -/
  mem : Memory
  /-- The instruction pointer (R12). -/
  ip : Word
  /-- The relative base (R13). -/
  rb : Word
  /-- The input queue, oldest entry first (R16). -/
  inq : List Word
  /-- The output log, oldest entry first (R17). -/
  outlog : List Word
  /-- R18. -/
  status : Status
  /-- The kind in the fault latch (R19). -/
  cause : Cause
  /-- The value in the fault latch (R19). -/
  info : Word
deriving DecidableEq, Repr

/-- Reasons for a step to stop without a next state: the spec has none, so this type has no
constructor. What the spec calls a fault is latched in the state by `State.faultEntry` and is a next
state (60_exceptions.md R136; log 4). Safe: no step can end so. -/
inductive Fault : Type
deriving DecidableEq, Repr

/-- Reasons for having no meaning. Neither is reached by `step`. -/
inductive Refusal where
  /-- Raised by an arm of `exec` whose instruction has no meaning yet (none is left). Safe. -/
  | notModelled (mnemonic : String)
  /-- Raised by `withDestination` for a term whose destination operand is Immediate: no word of the
  machine decodes to one (20_memory.md R40, "must be rejected at decode time, never reached at
  execute time"; log 6). Safe. -/
  | immediateDestination
deriving DecidableEq, Repr

/-- How a step or an instruction ends. -/
abbrev Result := Host.Outcome State Fault Refusal

/-- The state after `reset([])` on the default configuration (R22, R150): nothing in memory, every
register at the value R22 gives it (log 3). -/
def State.reset : State :=
  { cfg := Config.standard
    mem := []
    ip := 0#64
    rb := 0#64
    inq := []
    outlog := []
    status := .running
    cause := .none
    info := 0#64 }

end Sys2Proof.Machine
end

