-- ==== Sys2Proof/Machine/Ops.lean ====
section
/-! DEFINITION. The named operations over memory and registers (spec/20_memory.md R30 to R35), fault
entry and suspension (spec/60_exceptions.md R130 to R138), and instruction fetch
(spec/40_step_cycle.md R71, R72). -/

namespace Sys2Proof.Machine

/-- The numeric code of a status (R18, D15). -/
def Status.code : Status → Nat
  | .running => 0
  | .halted => 1
  | .waitingForInput => 2
  | .faulted => 3

/-- The numeric code of a cause (R19, R130, D15). -/
def Cause.code : Cause → Nat
  | .none => 0
  | .addressOutOfBound => 1
  | .invalidInstruction => 2
  | .arithmeticOverflow => 3

/-- The raw content of a cell; an unlisted cell holds 0. -/
def Memory.get : Memory → Nat → Word
  | [], _ => 0#64
  | (k, v) :: m, a => if k = a then v else Memory.get m a

/-- Replaces the content of one cell and keeps the canonical form: storing 0 removes the entry. -/
def Memory.set : Memory → Nat → Word → Memory
  | [], a, v => if v = 0#64 then [] else [(a, v)]
  | (k, x) :: m, a, v =>
    if a < k then if v = 0#64 then (k, x) :: m else (a, v) :: (k, x) :: m
    else if a = k then if v = 0#64 then m else (a, v) :: m
    else (k, x) :: Memory.set m a v

/-- The memory that holds the given cells from address `a` on and 0 elsewhere (R150). -/
def Memory.load : Nat → List Word → Memory
  | _, [] => []
  | a, v :: vs => if v = 0#64 then Memory.load (a + 1) vs else (a, v) :: Memory.load (a + 1) vs

/-- `mem[a]`: the raw content of a cell, with no bounds check. -/
def State.cell (s : State) (a : Nat) : Word := s.mem.get a

/-- `mem[a] <- v` for an address already checked. -/
def State.setCell (s : State) (a : Nat) (v : Word) : State := { s with mem := s.mem.set a v }

/-- The commit of R74: `ip <- ip + n`. After a successful fetch the sum cannot leave 64 bits (log 7). -/
def State.advance (s : State) (n : Nat) : State := { s with ip := s.ip + BitVec.ofNat 64 n }

/-- A taken jump: `ip <- target`, unchecked (R75, R97). -/
def State.jump (s : State) (target : Word) : State := { s with ip := target }

/-- `rb <- v` (R105). -/
def State.setRb (s : State) (v : Word) : State := { s with rb := v }

/-- `inq <- q`. -/
def State.setInq (s : State) (q : List Word) : State := { s with inq := q }

/-- `outlog <- outlog ++ [v]` (R91). -/
def State.appendOutput (s : State) (v : Word) : State := { s with outlog := s.outlog ++ [v] }

/-- What a step can raise: the three fault kinds with the value each records (60_exceptions.md R130). -/
inductive Raised where
  /-- A fetch, read or destination check outside 0 .. CAP-1 (R131). -/
  | addressOutOfBound (address : Int)
  /-- A word the decoder refuses (R132). -/
  | invalidInstruction (word : Word)
  /-- A sum or product outside 64 bits (R133). -/
  | arithmeticOverflow
deriving DecidableEq, Repr

/-- `code(F)`, as the enumeration (R130). -/
def Raised.cause : Raised → Cause
  | .addressOutOfBound _ => .addressOutOfBound
  | .invalidInstruction _ => .invalidInstruction
  | .arithmeticOverflow => .arithmeticOverflow

/-- The value recorded: the offending address, the offending word, or 0 (R130). Every address a step
records fits 64 bits (R19). -/
def Raised.info : Raised → Word
  | .addressOutOfBound a => BitVec.ofInt 64 a
  | .invalidInstruction w => w
  | .arithmeticOverflow => 0#64

/-- Fault entry, the taking of an exception: "the engine does exactly this and nothing else" (R136).
There is no handler, and no instruction returns from a fault (R138): only `reset` leaves `faulted`. -/
def State.faultEntry (s : State) (e : Raised) : State :=
  { s with status := .faulted, cause := e.cause, info := e.info }

/-- The suspend signal: "sets `status <- WaitingForInput` and changes nothing else" (R135, R76). -/
def State.suspend (s : State) : State := { s with status := .waitingForInput }

/-- `status <- Halted` (R108). -/
def State.setHalted (s : State) : State := { s with status := .halted }

/-- What `run` does to `status` before its first step: from `WaitingForInput` it becomes `Running`
(R80). This is the return from a suspension. -/
def State.resume (s : State) : State :=
  match s.status with
  | .running => s
  | .halted => s
  | .waitingForInput => { s with status := .running }
  | .faulted => s

/-- How an instruction's body ends: its state, or the entry of the fault it raised. The fault is
entered on the state the step began with, so it is precise (R136). -/
def settle (s : State) : Except Raised State → Result
  | .ok t => .next t
  | .error e => .next (s.faultEntry e)

/-- `CheckAddr(a)` (R31), answering the cell's index. -/
def checkAddr (s : State) (a : Int) : Except Raised Nat :=
  if a < 0 ∨ (s.cfg.cap : Int) ≤ a then .error (.addressOutOfBound a) else .ok a.toNat

/-- `MemRead(a, 1)` (R32). -/
def memRead (s : State) (a : Int) : Except Raised Word := do
  let k ← checkAddr s a
  .ok (s.cell k)

/-- `MemWrite(a, 1, v)` (R33). -/
def memWrite (s : State) (a : Int) (v : Word) : Except Raised State := do
  let k ← checkAddr s a
  .ok (s.setCell k v)

/-- Fetches `n` cells from address `a` on, in increasing order (R57). -/
def fetchCells (s : State) (a : Int) : Nat → Except Raised (List Word)
  | 0 => .ok []
  | n + 1 => do
    let w ← memRead s a
    let ws ← fetchCells s (a + 1) n
    .ok (w :: ws)

/-- Fetch and decode, `Decode()` of R58: the word at `ip`, the legality checks, then the parameters
`ip+1 ..`. It changes no state. -/
def fetchInstr (s : State) : Except Raised Instr := do
  let w ← memRead s s.ip.toInt
  match decodeHeader w with
  | .error _ => .error (.invalidInstruction w)
  | .ok h =>
    let ps ← fetchCells s (s.ip.toInt + 1) h.op.arity
    .ok (h.instrOf ps)

/-- The cells that can be fetched from address `a` on, at most `n`, ending before the first address
that is out of bounds. -/
def State.cellsFrom (s : State) (a : Int) : Nat → List Word
  | 0 => []
  | n + 1 =>
    match memRead s a with
    | .error _ => []
    | .ok w => w :: s.cellsFrom (a + 1) n

/-- The up to four cells at the instruction pointer: what a step can fetch (R51). -/
def State.window (s : State) : List Word := s.cellsFrom s.ip.toInt 4

/-- Stores the cells at consecutive addresses from `a` on; those at or above the capacity are left out. -/
def State.placeCells (s : State) (a : Nat) : List Word → State
  | [] => s
  | w :: ws =>
    State.placeCells (if a < s.cfg.cap then s.setCell a w else s) (a + 1) ws

/-- Where `withFetchWord` stores an instruction: at `ip` if the longest instruction fits there, else
at the entry point, cell 0 (log 11). -/
def State.fetchBase (s : State) : Nat :=
  if 0 ≤ s.ip.toInt ∧ s.ip.toInt + 4 ≤ (s.cfg.cap : Int) then s.ip.toInt.toNat else 0

/-- The state made ready to run the instruction whose cells are given: the cells at the fetch
address, `ip` there, and the engine running with a clear latch (log 11). -/
def State.withFetchCells (s : State) (ws : List Word) : State :=
  { s.placeCells s.fetchBase ws with
    ip := BitVec.ofNat 64 s.fetchBase, status := .running, cause := .none, info := 0#64 }

end Sys2Proof.Machine
end

