-- ==== Sys2Proof/Machine/Operands.lean ====
section
/-! DEFINITION. The operand resolver (spec/20_memory.md R36 to R40): effective address, source value
and destination address of every operand form. -/

namespace Sys2Proof.Machine

/-- An operand that names a cell: mode Direct or Relative. `EA` and `WriteTarget` are defined on
these only (R37, R39). -/
inductive Location where
  | direct (address : Word)
  | relative (offset : Word)
deriving DecidableEq, Repr

end Sys2Proof.Machine

namespace Sys2Proof

/-- The cell an operand names, if its mode is Direct or Relative (R36). -/
def Operand.location? : Operand → Option Machine.Location
  | .direct p => some (.direct p)
  | .immediate _ => none
  | .relative p => some (.relative p)

end Sys2Proof

namespace Sys2Proof.Machine

/-- The exact integer as a datum, or `ArithmeticOverflow` when it does not fit: the one place where
each of the four adders and multipliers narrows its result (41_arithmetic.md R87). -/
def narrow (v : Int) : Except Raised Word :=
  if fits v then .ok (BitVec.ofInt 64 v) else .error .arithmeticOverflow

/-- `EA(m, p)` (R37). -/
def effectiveAddress (s : State) : Location → Except Raised Word
  | .direct p => .ok p
  | .relative p => narrow (s.rb.toInt + p.toInt)

/-- `ReadOperand(m, p)` (R38). -/
def readOperand (s : State) (o : Operand) : Except Raised Word :=
  match o with
  | .immediate p => .ok p
  | .direct p => do
    let a ← effectiveAddress s (.direct p)
    memRead s a.toInt
  | .relative p => do
    let a ← effectiveAddress s (.relative p)
    memRead s a.toInt

/-- `WriteTarget(m, p)`: the checked address of the destination cell (R39). -/
def writeTarget (s : State) (l : Location) : Except Raised Nat := do
  let a ← effectiveAddress s l
  checkAddr s a.toInt

/-- Runs a body on the destination of an instruction; an Immediate destination is refused by name,
which no decoded instruction has (R40; log 6). -/
def withDestination (dst : Operand) (body : Location → Result) : Result :=
  match dst.location? with
  | none => .refused .immediateDestination
  | some l => body l

end Sys2Proof.Machine
end

