-- ==== Sys2Proof/Machine/Flags.lean ====
section
/-! DEFINITION. The ALU's results (spec/41_arithmetic.md R87, 44_compare.md). The engine has no flags,
condition codes or predicate registers (spec/10_state.md R20): a comparison's result is a datum, 0 or
1, and a jump tests a value. -/

namespace Sys2Proof.Machine

/-- The result of a comparison as a cell value: "1 if ... else 0" (R100, R101). -/
def truthWord (b : Bool) : Word := if b then 1#64 else 0#64

/-- The exact sum, or overflow (R85). -/
def aluAdd (x y : Word) : Except Raised Word := narrow (x.toInt + y.toInt)

/-- The exact product, or overflow (R86). -/
def aluMul (x y : Word) : Except Raised Word := narrow (x.toInt * y.toInt)

/-- Signed less-than of the two values; it never faults (R100). -/
def aluLessThan (x y : Word) : Except Raised Word := .ok (truthWord (decide (x.toInt < y.toInt)))

/-- Equality of the two values; it never faults (R101). -/
def aluEquals (x y : Word) : Except Raised Word := .ok (truthWord (decide (x.toInt = y.toInt)))

/-- The condition of JumpIfTrue: any nonzero value (R95). -/
def conditionTrue (x : Word) : Bool := decide (x.toInt ≠ 0)

/-- The condition of JumpIfFalse: zero (R96). -/
def conditionFalse (x : Word) : Bool := decide (x.toInt = 0)

end Sys2Proof.Machine
end

