-- ==== Sys2Proof/Machine/Arithmetic.lean ====
section
/-! DEFINITION. Add and Mul (spec/41_arithmetic.md), and the shared shape of the four instructions
that compute from two sources and store one cell. -/

namespace Sys2Proof.Machine

/-- The body of Add, Mul, LessThan and Equals: read a, read b, compute, check the destination, then
write and commit 4 cells (R85, R86, R100, R101; the order is R137's). -/
def storeResult (alu : Word → Word → Except Raised Word) (a b : Operand) (l : Location) (s : State) :
    Except Raised State := do
  let x ← readOperand s a
  let y ← readOperand s b
  let r ← alu x y
  let d ← writeTarget s l
  .ok ((s.setCell d r).advance 4)

/-- **Add** (R85). -/
def execAdd (a b dst : Operand) (s : State) : Result :=
  withDestination dst (fun l => settle s (storeResult aluAdd a b l s))

/-- **Mul** (R86). -/
def execMul (a b dst : Operand) (s : State) : Result :=
  withDestination dst (fun l => settle s (storeResult aluMul a b l s))

end Sys2Proof.Machine
end

