-- ==== Sys2Proof/Machine/Compare.lean ====
section
/-! DEFINITION. LessThan and Equals (spec/44_compare.md). -/

namespace Sys2Proof.Machine

/-- **LessThan** (R100). -/
def execLessThan (a b dst : Operand) (s : State) : Result :=
  withDestination dst (fun l => settle s (storeResult aluLessThan a b l s))

/-- **Equals** (R101). -/
def execEquals (a b dst : Operand) (s : State) : Result :=
  withDestination dst (fun l => settle s (storeResult aluEquals a b l s))

end Sys2Proof.Machine
end

