-- ==== Sys2Proof/Machine/Halt.lean ====
section
/-! DEFINITION. Halt (spec/46_halt.md), the only system instruction (R109). -/

namespace Sys2Proof.Machine

/-- **Halt** (R108): `status <- Halted`, and `ip` advances past the word. -/
def execHalt (s : State) : Result := .next (s.setHalted.advance 1)

end Sys2Proof.Machine
end

