-- ==== Sys2Proof/Machine/InputOutput.lean ====
section
/-! DEFINITION. Input and Output (spec/42_io.md). -/

namespace Sys2Proof.Machine

/-- Input on a queue that is not empty: check the destination, then pop, store and commit 2 cells
(R90). -/
def storeInput (v : Word) (rest : List Word) (l : Location) (s : State) : Except Raised State := do
  let d ← writeTarget s l
  .ok (((s.setInq rest).setCell d v).advance 2)

/-- **Input** (R90): the emptiness test comes first, and an empty queue suspends. -/
def execInput (dst : Operand) (s : State) : Result :=
  withDestination dst (fun l =>
    match s.inq with
    | [] => .next s.suspend
    | v :: rest => settle s (storeInput v rest l s))

/-- The body of Output: read, append, commit 2 cells (R91). -/
def appendOperand (a : Operand) (s : State) : Except Raised State := do
  let x ← readOperand s a
  .ok ((s.appendOutput x).advance 2)

/-- **Output** (R91). -/
def execOutput (a : Operand) (s : State) : Result := settle s (appendOperand a s)

end Sys2Proof.Machine
end

