-- ==== Sys2Proof/Machine/Jumps.lean ====
section
/-! DEFINITION. JumpIfTrue and JumpIfFalse (spec/43_jumps.md). -/

namespace Sys2Proof.Machine

/-- The body of the conditional jumps: both operands are read whether or not the jump is taken; a
taken jump writes `ip` unchecked, one not taken commits 3 cells (R95, R96, R97). -/
def jumpWhen (cond : Word → Bool) (a b : Operand) (s : State) : Except Raised State := do
  let x ← readOperand s a
  let y ← readOperand s b
  .ok (if cond x then s.jump y else s.advance 3)

/-- **JumpIfTrue** (R95). -/
def execJumpIfTrue (a b : Operand) (s : State) : Result := settle s (jumpWhen conditionTrue a b s)

/-- **JumpIfFalse** (R96). -/
def execJumpIfFalse (a b : Operand) (s : State) : Result := settle s (jumpWhen conditionFalse a b s)

end Sys2Proof.Machine
end

