-- ==== Sys2Proof/Machine/RelativeBase.lean ====
section
/-! DEFINITION. AdjustRelativeBase (spec/45_relative_base.md). -/

namespace Sys2Proof.Machine

/-- The body of AdjustRelativeBase: read with the old `rb`, add, then write `rb` and commit 2 cells
(R105). -/
def adjustBase (a : Operand) (s : State) : Except Raised State := do
  let x ← readOperand s a
  let r ← aluAdd s.rb x
  .ok ((s.setRb r).advance 2)

/-- **AdjustRelativeBase** (R105). -/
def execAdjustRelativeBase (a : Operand) (s : State) : Result := settle s (adjustBase a s)

end Sys2Proof.Machine
end

