-- ==== Sys2Proof/Machine/Cycle.lean ====
section
/-! DEFINITION. The step cycle (spec/40_step_cycle.md R70 to R78): fetch, decode, execute, commit. -/

namespace Sys2Proof.Machine

/-- Fetch and decode, then the rule of the decoded instruction; a fault of the fetch is latched
(R71 to R77). -/
def runInstr (s : State) : Result :=
  match fetchInstr s with
  | .error e => .next (s.faultEntry e)
  | .ok i => exec i s

/-- Steps are executed only while `status = Running` (R79, R80); a stopped engine idles, with no
state changed, until the host acts (log 5). -/
def cycle (s : State) : Result :=
  match s.status with
  | .running => runInstr s
  | .halted => .next s
  | .waitingForInput => .next s
  | .faulted => .next s

end Sys2Proof.Machine
end

