-- ==== Sys2Proof/Machine/Step.lean ====
section
/-! DEFINITION. One step of the machine (spec/40_step_cycle.md R70). -/

namespace Sys2Proof.Machine

/-- A step of the engine (R70): one cycle. -/
def step (s : State) : Host.Outcome State Fault Refusal := cycle s

/-- The state with a table word stored where `step` fetches its next instruction (the host's
interface; log 10, log 11). -/
def State.withFetchWord (s : State) (nbits w : Nat) : State := s.withFetchCells (tableCells nbits w)

end Sys2Proof.Machine
end

