-- ==== Sys2Proof/Machine/Transactions.lean ====
section
/-! DEFINITION. The run loop (spec/40_step_cycle.md R79 to R81) and the seven host transactions
(spec/50_host_interface.md R110 to R120, spec/70_reset_and_hazards.md R150 to R154). Each is one atomic
change of the state between runs (log 9). -/

namespace Sys2Proof.Machine

/-- `RunLoop()` (R79): steps are repeated while the status is Running. A run that never stops has no
end state, and no number bounds its steps (R81). -/
inductive RunLoop : State → State → Prop where
  | stopped {s : State} (h : s.status ≠ .running) : RunLoop s s
  | step {s t u : State} (h : s.status = .running) (hs : step s = .next t) (ht : RunLoop t u) :
      RunLoop s u

/-- `run()`, from the state it is called in to the state it returns in (R80). -/
def Run (s t : State) : Prop := RunLoop s.resume t

/-- The run loop under fuel, a device for running the model outside its semantics (R81): `none` when
the fuel ends before the run does. -/
def runFuel : Nat → State → Option State
  | 0, s => if s.status = .running then none else some s
  | n + 1, s =>
    if s.status = .running then
      match step s with
      | .next t => runFuel n t
      | .fault _ => none
      | .refused _ => none
    else some s

/-- The completion codes of `run` (R113). -/
inductive Completion where
  | done
  | waitingForInput
  | fault (cause : Cause) (info : Word)
deriving DecidableEq, Repr

/-- "The completion code always agrees with `status`, `cause` and `info` after the call" (R113). A
running state is none that `run` returns in. -/
def State.completion? (s : State) : Option Completion :=
  match s.status with
  | .running => none
  | .halted => some .done
  | .waitingForInput => some .waitingForInput
  | .faulted => some (.fault s.cause s.info)

/-- `Reset(program)` (R150), once the program is known to fit. -/
def State.loaded (cfg : Config) (program : List Word) : State :=
  { cfg := cfg
    mem := Memory.load 0 program
    ip := 0#64
    rb := 0#64
    inq := []
    outlog := []
    status := .running
    cause := .none
    info := 0#64 }

/-- `new(program)` (R111) on an instance of the given capacity: `none` is `LoadError`, no instance
(R119). -/
def newInstance (cfg : Config) (program : List Word) : Option State :=
  if program.length ≤ cfg.cap then some (State.loaded cfg program) else none

/-- `input(v)` (R112): it appends and changes nothing else, in every status. -/
def State.input (s : State) (v : Word) : State := s.setInq (s.inq ++ [v])

/-- `output()` (R114): the whole log, oldest entry first. -/
def State.output (s : State) : List Word := s.outlog

/-- `status()` (R115): true while running or resumable. -/
def State.isLive (s : State) : Bool :=
  match s.status with
  | .running => true
  | .halted => false
  | .waitingForInput => true
  | .faulted => false

/-- What `peek()` returns (R117); `cells` holds the content of every cell 0 .. CAP-1 in the canonical
form of memory (log 13). -/
structure Peek where
  cap : Nat
  cells : Memory
  ip : Word
  rb : Word
  status : Status
  cause : Cause
  info : Word
  inqLength : Nat
deriving DecidableEq, Repr

/-- `peek()` (R117). -/
def State.peek (s : State) : Peek :=
  { cap := s.cfg.cap
    cells := s.mem
    ip := s.ip
    rb := s.rb
    status := s.status
    cause := s.cause
    info := s.info
    inqLength := s.inq.length }

/-- The content of one cell of a `peek`, for an address inside memory (R117). -/
def Peek.cell? (p : Peek) (a : Nat) : Option Word := if a < p.cap then some (p.cells.get a) else none

/-- The host's transactions on an instance that exists (R110); `new` makes one and is
`newInstance`. -/
inductive Transaction where
  | reset (program : List Word)
  | input (v : Word)
  | run
  | output
  | status
  | peek
deriving DecidableEq, Repr

/-- What a transaction returns. -/
inductive Reply where
  | unit
  | loadError
  | completion (c : Completion)
  | log (entries : List Word)
  | live (b : Bool)
  | peeked (p : Peek)
deriving DecidableEq, Repr

/-- A transaction, from the state between runs it is issued in to its reply and the state it leaves
(R110). A transaction during a run is no move of this relation (R118), and a `run` that does not end
has no reply (R81). -/
inductive Transact : State → Transaction → Reply → State → Prop where
  /-- R116, R151: accepted in every status; nothing of the earlier state survives. -/
  | reset {s t : State} {program : List Word} (h : newInstance s.cfg program = some t) :
      Transact s (.reset program) .unit t
  /-- R119: a program that does not fit is refused and the state is unchanged. -/
  | resetRefused {s : State} {program : List Word} (h : newInstance s.cfg program = none) :
      Transact s (.reset program) .loadError s
  /-- R112. -/
  | input {s : State} {v : Word} : Transact s (.input v) .unit (s.input v)
  /-- R113. -/
  | run {s t : State} {c : Completion} (h : Run s t) (hc : t.completion? = some c) :
      Transact s .run (.completion c) t
  /-- R114. -/
  | output {s : State} : Transact s .output (.log s.output) s
  /-- R115. -/
  | status {s : State} : Transact s .status (.live s.isLive) s
  /-- R117. -/
  | peek {s : State} : Transact s .peek (.peeked s.peek) s

/-- The states of an instance that the host can observe: those between transactions, from `new` on
(R24, R152). -/
inductive Observable : State → Prop where
  | new {cfg : Config} {program : List Word} {s : State} (h : newInstance cfg program = some s) :
      Observable s
  | transact {s t : State} {x : Transaction} {r : Reply} (hs : Observable s)
      (h : Transact s x r t) : Observable t

end Sys2Proof.Machine
end

