-- ==== Sys2Proof/Machine/Instances.lean ====
section
/-! DEFINITION. Several instances (spec/10_state.md R21, spec/50_host_interface.md R121) and the
feedback pipeline a controller makes of them (R122), which is a use of the engine and no part of it
(spec/00_scope.md R3). -/

namespace Sys2Proof.Machine

/-- The host's instances, in the host's order (log 14). -/
abbrev Fleet := List State

/-- A transaction on the instance at position `k`; no other instance takes part (R21, R121). -/
def FleetTransact (f : Fleet) (k : Nat) (x : Transaction) (r : Reply) (g : Fleet) : Prop :=
  ∃ s t, f[k]? = some s ∧ Transact s x r t ∧ g = f.set k t

/-- One turn of the pipeline: the signal is pushed into instance `k`, the instance is run, and its
most recently appended output entry is the next signal (R122, in the order of 95_test_vectors.md P6).
How the run ended is not looked at, as in P6: R122 names WaitingForInput and Halted only, and what the
controller does when a run faults is the model's choice (log 14), to hand on the last entry and go on. -/
def PipelineTurn (f : Fleet) (k : Nat) (signal : Word) (g : Fleet) (signal' : Word) : Prop :=
  ∃ s t, f[k]? = some s ∧ Run (s.input signal) t ∧ t.output.getLast? = some signal' ∧ g = f.set k t

/-- The turns of one pass from instance `k` on, "in the same fixed order" (R122). -/
inductive PipelineFrom : Nat → Fleet → Word → Fleet → Word → Prop where
  | finished {k : Nat} {f : Fleet} {v : Word} (h : f.length ≤ k) : PipelineFrom k f v f v
  | turn {k : Nat} {f g f' : Fleet} {v w v' : Word} (h : PipelineTurn f k v g w)
      (hr : PipelineFrom (k + 1) g w f' v') : PipelineFrom k f v f' v'

/-- One pass over all instances (R122). -/
def PipelinePass (f : Fleet) (v : Word) (f' : Fleet) (v' : Word) : Prop := PipelineFrom 0 f v f' v'

/-- The pipeline's termination condition: `status()` is false for every instance (P6). Where none has
faulted that is R122's "all instances Halted"; that a faulted instance counts as done is the model's
choice (log 14), after the reason of D23. -/
def pipelineDone (f : Fleet) : Bool := f.all (fun s => !s.isLive)

/-- The controller's loop: turns "repeatedly, in round-robin order", the signal of each fed into the
next, from instance `k` on until all instances are done (R122). The condition is tested before every
turn, so the loop may end within a pass, as P6 does; a pipeline that is never done has no end. -/
inductive PipelineLoop : Nat → Fleet → Word → Fleet → Word → Prop where
  | done {k : Nat} {f : Fleet} {v : Word} (h : pipelineDone f = true) : PipelineLoop k f v f v
  | turn {k : Nat} {f g f' : Fleet} {v w v' : Word} (h : pipelineDone f = false)
      (ht : PipelineTurn f k v g w) (hr : PipelineLoop ((k + 1) % f.length) g w f' v') :
      PipelineLoop k f v f' v'

/-- "Feeds each one's ... initial inputs up front" (R122): the values of each list are queued at the
instance of the same position. R122's controller gives each instance two, P6's none (log 14). -/
def feedUpFront : Fleet → List (List Word) → Fleet
  | [], _ => []
  | s :: f, [] => s :: f
  | s :: f, q :: qs => q.foldl State.input s :: feedUpFront f qs

/-- The feedback pipeline as a whole: the initial inputs, then turns from the first instance on with
the host's first signal, to the fleet it ends in and the final signal (R122, P6). -/
def Pipeline (f : Fleet) (initial : List (List Word)) (signal : Word) (g : Fleet) (result : Word) :
    Prop :=
  PipelineLoop 0 (feedUpFront f initial) signal g result

end Sys2Proof.Machine
end

