-- ==== Sys2Proof/Safety.lean ====
section
/-! DEFINITION. The terms claims use: the invariant of an engine instance, reachability by steps, and
what a safe run is. -/

namespace Sys2Proof.Machine

/-- The fault latch agrees with the status and holds what R19 says it holds: nothing unless faulted;
an address outside memory; a word that is no instruction; or 0. -/
def State.latchOk (s : State) : Bool :=
  match s.status, s.cause with
  | .faulted, .none => false
  | .faulted, .addressOutOfBound => decide (s.info.toInt < 0 ∨ (s.cfg.cap : Int) ≤ s.info.toInt)
  | .faulted, .invalidInstruction =>
    match decodeHeader s.info with
    | .ok _ => false
    | .error _ => true
  | .faulted, .arithmeticOverflow => decide (s.info = 0#64)
  | .running, c => decide (c = .none) && decide (s.info = 0#64)
  | .halted, c => decide (c = .none) && decide (s.info = 0#64)
  | .waitingForInput, c => decide (c = .none) && decide (s.info = 0#64)

/-- The invariant: memory is canonical and lies inside 0 .. CAP-1, and the fault latch is sound. -/
abbrev State.Inv (s : State) : Prop :=
  s.mem.wf = true ∧ s.mem.below s.cfg.cap = true ∧ s.latchOk = true

/-- Reached by some number of steps. -/
inductive Reaches : State → State → Prop where
  | refl {s : State} : Reaches s s
  | step {s t u : State} (h : step s = .next t) (ht : Reaches t u) : Reaches s u

/-- A state in which no fault has aborted the run. -/
abbrev State.Safe (s : State) : Prop := s.status ≠ .faulted

/-- A run is safe when no state it reaches has faulted: it meets no illegal word, no address outside
memory and no overflow (R130). -/
def SafeFrom (s : State) : Prop := ∀ t, Reaches s t → t.Safe

end Sys2Proof.Machine
end

