-- ==== Sys2Proof/Certificates/Slice0/Obligations.lean ====
section
/-! DEFINITION. The statements for the provers, each a proposition about the model that formalises a
rule of spec/. The vocabulary they share stands first. -/

namespace Sys2Proof.Claims

open Sys2Proof.Machine

/-- The opcode field of a non-negative word (30_encoding.md R50). -/
def opField (w : Word) : Nat := w.toNat % 100

/-- The mode digit of slot `k`, 1 to 3 (R50): the decimal digit of weight 10^(k+1). -/
def slotDigit (w : Word) (k : Nat) : Nat := w.toNat / 10 ^ (k + 1) % 10

/-- The arity column of R52. -/
def arityOf (op : Nat) : Nat :=
  if op ∈ [1, 2, 7, 8] then 3 else if op ∈ [5, 6] then 2 else if op ∈ [3, 4, 9] then 1 else 0

/-- The words R132 lists: out of range (R53), opcode not in the table (R54), mode digit above 2 or in a
slot beyond the arity (R55), mode digit 1 in a destination slot (R56). -/
abbrev IllegalWord (w : Word) : Prop :=
  w.toInt < 0 ∨ 99999 < w.toInt ∨ opField w ∉ [1, 2, 3, 4, 5, 6, 7, 8, 9, 99] ∨
  (∃ k ∈ [1, 2, 3], 2 < slotDigit w k) ∨
  (∃ k ∈ [1, 2, 3], arityOf (opField w) < k ∧ slotDigit w k ≠ 0) ∨
  (opField w ∈ [1, 2, 7, 8] ∧ slotDigit w 3 = 1) ∨ (opField w = 3 ∧ slotDigit w 1 = 1)

/-- The instruction word `m3*10000 + m2*1000 + m1*100 + op` of R50. -/
def wordOf (op m1 m2 m3 : Nat) : Word := BitVec.ofNat 64 (m3 * 10000 + m2 * 1000 + m1 * 100 + op)

/-- The destination parameter of R52, where the instruction has one. -/
def destinationOf : Instr → Option Operand
  | .add _ _ dst => some dst
  | .mul _ _ dst => some dst
  | .input dst => some dst
  | .output _ => none
  | .jumpIfTrue _ _ => none
  | .jumpIfFalse _ _ => none
  | .lessThan _ _ dst => some dst
  | .equals _ _ dst => some dst
  | .adjustRelativeBase _ => none
  | .halt => none

/-- The status and the fault latch are as before, unless the instruction faulted; then nothing but
they changed. -/
def LatchKeptOrFaulted (s t : State) : Prop :=
  (t.status = s.status ∧ t.cause = s.cause ∧ t.info = s.info) ∨ ∃ e, t = s.faultEntry e

/-- Completion of an instruction with two sources and a destination: when both sources can be read,
the result `f` fits and the destination is inside memory, exactly the destination cell and `ip`
change, and the cell then holds `f` of the two values. -/
def StoresResult (mk : Operand → Operand → Operand → Instr) (f : Int → Int → Int) : Prop :=
  ∀ (a b dst : Operand) (l : Location) (s : State) (x y : Word) (d : Nat),
    dst.location? = some l → readOperand s a = .ok x → readOperand s b = .ok y →
    fits (f x.toInt y.toInt) → writeTarget s l = .ok d →
    ∃ t, exec (mk a b dst) s = .next t ∧
      t = { s with mem := s.mem.set d (BitVec.ofInt 64 (f x.toInt y.toInt)), ip := s.ip + 4#64 } ∧
      (s.mem.wf = true → (t.cell d).toInt = f x.toInt y.toInt) ∧
      ∀ k, k ≠ d → t.cell k = s.cell k

/-- The faults of such an instruction that come from its operands, in the order they are tested: source
a, source b, and, when the result fits, the destination. -/
def OperandFaults (mk : Operand → Operand → Operand → Instr) (f : Int → Int → Int) : Prop :=
  ∀ (a b dst : Operand) (l : Location) (s : State) (e : Raised), dst.location? = some l →
    (readOperand s a = .error e → exec (mk a b dst) s = .next (s.faultEntry e)) ∧
    (∀ x, readOperand s a = .ok x → readOperand s b = .error e →
      exec (mk a b dst) s = .next (s.faultEntry e)) ∧
    (∀ x y, readOperand s a = .ok x → readOperand s b = .ok y → fits (f x.toInt y.toInt) →
      writeTarget s l = .error e → exec (mk a b dst) s = .next (s.faultEntry e))

/-- A result that does not fit is `ArithmeticOverflow(0)`, whatever the destination is. -/
def ResultOverflows (mk : Operand → Operand → Operand → Instr) (f : Int → Int → Int) : Prop :=
  ∀ (a b dst : Operand) (l : Location) (s : State) (x y : Word), dst.location? = some l →
    readOperand s a = .ok x → readOperand s b = .ok y → ¬ fits (f x.toInt y.toInt) →
    exec (mk a b dst) s = .next (s.faultEntry .arithmeticOverflow)

/-- Format F3: four cells, the word and the parameters in order (R51). -/
def EncodesAsF3 (mk : Operand → Operand → Operand → Instr) (op : Nat) : Prop :=
  ∀ a b dst : Operand, encode (mk a b dst) =
    [wordOf op a.mode.digit b.mode.digit dst.mode.digit, a.param, b.param, dst.param]

/-- A conditional jump on the value of its first operand: taken, it writes its second operand's value
to `ip`; not taken, `ip` advances by 3; both operands are read in order either way; nothing else
changes. -/
def JumpsWhen (mk : Operand → Operand → Instr) (cond : Int → Prop) (op : Nat) : Prop :=
  ∀ (a b : Operand) (s : State),
    encode (mk a b) = [wordOf op a.mode.digit b.mode.digit 0, a.param, b.param] ∧
    (∀ x y, readOperand s a = .ok x → readOperand s b = .ok y → cond x.toInt →
      exec (mk a b) s = .next { s with ip := y }) ∧
    (∀ x y, readOperand s a = .ok x → readOperand s b = .ok y → ¬ cond x.toInt →
      exec (mk a b) s = .next { s with ip := s.ip + 3#64 }) ∧
    (∀ e, readOperand s a = .error e → exec (mk a b) s = .next (s.faultEntry e)) ∧
    (∀ x e, readOperand s a = .ok x → readOperand s b = .error e →
      exec (mk a b) s = .next (s.faultEntry e))

end Sys2Proof.Claims

open Sys2Proof Sys2Proof.Machine Sys2Proof.Claims

/-! ### Encoding -/

/-- Encoding a well-formed instruction and decoding it gives it back, with the cells after it (R50,
R51, R52, R55, R57). -/
def Obligations.DecodeOfEncodeGivesBack : Prop :=
  ∀ (i : Instr) (rest : List Word), i.wellFormed = true → decode (encode i ++ rest) = .ok (i, rest)

/-- Whatever cells decode to an instruction are its encoding: each instruction has one word per mode
combination, and the decoder answers well-formed instructions only (R40, R59). -/
def Obligations.DecodedCellsAreTheEncoding : Prop :=
  ∀ (ws : List Word) (i : Instr) (rest : List Word), decode ws = .ok (i, rest) →
    i.wellFormed = true ∧ ws = encode i ++ rest

/-- The legal words are exactly 99, counted per instruction, and every other cell fetched as an
instruction word is `InvalidInstruction(w)` (R59, which the spec marks as derived from R52 to R56; D5, D6). -/
def Obligations.LegalWordsAreExactlyNinetyNine : Prop :=
  (∀ w : Word, (∃ h, decodeHeader w = .ok h) ↔ ∃ n ∈ legalWords, w = BitVec.ofNat 64 n) ∧
  (∀ op : Opcode, ∀ n ∈ op.legalWords, ∃ h, decodeHeader (BitVec.ofNat 64 n) = .ok h ∧ h.op = op) ∧
  Opcode.all.map (fun op => op.legalWords.length) = [18, 18, 2, 3, 9, 9, 18, 18, 3, 1] ∧
  legalWords.length = 99 ∧ legalWords.Nodup ∧
  (∀ (s : State) (k : Nat), s.status = .running → k < s.cfg.cap → s.ip.toInt = (k : Int) →
    (¬ ∃ n ∈ legalWords, s.cell k = BitVec.ofNat 64 n) →
    step s = .next (s.faultEntry (.invalidInstruction (s.cell k))))

/-- R132 (with decisions D5 and D6 for words out of range and unused slots): `InvalidInstruction(w)` is raised for exactly the listed words, with the whole word, whatever
the cells after it are, and nothing but the fault latch changes. -/
def Obligations.InvalidInstructionForExactlyTheListedWords : Prop :=
  ∀ s : State, s.status = .running →
    (∀ k : Nat, k < s.cfg.cap → s.ip.toInt = (k : Int) → IllegalWord (s.cell k) →
      step s = .next (s.faultEntry (.invalidInstruction (s.cell k)))) ∧
    (∀ t : State, step s = .next t → t.status = .faulted → t.cause = .invalidInstruction →
      ∃ k : Nat, k < s.cfg.cap ∧ s.ip.toInt = (k : Int) ∧ IllegalWord (s.cell k) ∧
        t = s.faultEntry (.invalidInstruction (s.cell k)))

/-- Words written out digit by digit from the spec's encoding decode to the instruction they stand
for. -/
def Obligations.WrittenOutWordsDecode : Prop :=
  decode [1002#64, 4#64, 3#64, 4#64] = .ok (.mul (.direct 4#64) (.immediate 3#64) (.direct 4#64), []) ∧
  decode [22201#64, 1#64, 2#64, 3#64] =
    .ok (.add (.relative 1#64) (.relative 2#64) (.relative 3#64), []) ∧
  decode [203#64, 7#64, 99#64] = .ok (.input (.relative 7#64), [99#64]) ∧
  decode [1105#64, 5#64, 7#64] = .ok (.jumpIfTrue (.immediate 5#64) (.immediate 7#64), []) ∧
  decode [109#64, 1#64] = .ok (.adjustRelativeBase (.immediate 1#64), []) ∧
  decode [99#64] = .ok (.halt, []) ∧
  decode [11101#64, 1#64, 2#64, 3#64] = .error .immediateDestination

/-! ### The step cycle -/

/-- When the cells at the instruction pointer decode to an instruction, a step of the running engine is
that instruction's execution on the state as it stands; the step adds nothing around it (R70 to R73). -/
def Obligations.StepRunsTheDecodedInstruction : Prop :=
  ∀ (s : State) (i : Instr) (rest : List Word), s.status = .running →
    decode s.window = .ok (i, rest) → step s = exec i s

/-- R71 (D7 and D8 for a negative or jumped-to `ip`): an `ip` outside memory faults at the fetch, with `ip` as the recorded address. -/
def Obligations.FetchOutsideMemoryFaults : Prop :=
  ∀ s : State, s.status = .running → (s.ip.toInt < 0 ∨ (s.cfg.cap : Int) ≤ s.ip.toInt) →
    step s = .next (s.faultEntry (.addressOutOfBound s.ip.toInt)) ∧
    (s.faultEntry (.addressOutOfBound s.ip.toInt)).info = s.ip ∧
    (s.faultEntry (.addressOutOfBound s.ip.toInt)).ip = s.ip

/-- An instruction whose parameters run past the end of memory faults with the first missing
parameter's address, which is CAP: there is no wrap-around (R12, R57). -/
def Obligations.ParameterPastTheEndFaults : Prop :=
  ∀ (s : State) (w : Word) (h : Header) (k : Nat), s.status = .running →
    memRead s s.ip.toInt = .ok w → decodeHeader w = .ok h → 1 ≤ k → k ≤ h.op.arity →
    s.ip.toInt + (k : Int) = (s.cfg.cap : Int) →
    step s = .next (s.faultEntry (.addressOutOfBound (s.ip.toInt + (k : Int))))

/-- A step of an engine that is not running changes nothing (R79, R80). That `step` answers the same
state there, and does not stop, is the model's choice (log 5). -/
def Obligations.StoppedEngineIdles : Prop :=
  ∀ s : State, s.status ≠ .running → step s = .next s

/-- R70, with R74 and R75 for `ip`: a step of a running engine ends in exactly one of four ways. -/
def Obligations.StepEndsInOneOfFourWays : Prop :=
  ∀ s : State, s.status = .running → ∃ t, step s = .next t ∧
    ((∃ i, fetchInstr s = .ok i ∧ i ≠ .halt ∧ exec i s = .next t ∧ t.status = .running ∧
        t.cause = s.cause ∧ t.info = s.info ∧ t.cfg = s.cfg ∧
        (t.ip = s.ip + BitVec.ofNat 64 i.length ∨
          ∃ a b, (i = .jumpIfTrue a b ∨ i = .jumpIfFalse a b) ∧ readOperand s b = .ok t.ip)) ∨
      (fetchInstr s = .ok .halt ∧ t = { s with status := .halted, ip := s.ip + 1#64 }) ∨
      (∃ dst, fetchInstr s = .ok (.input dst) ∧ s.inq = [] ∧
        t = { s with status := .waitingForInput }) ∨
      (∃ e, t = s.faultEntry e ∧ t.status = .faulted))

/-- The commit of a fetched instruction cannot leave 64 bits: the new `ip` is the old one plus the
length, at most CAP + 3 (R74). -/
def Obligations.CommitIsExact : Prop :=
  ∀ (s : State) (n : Nat), 0 ≤ s.ip.toInt → s.ip.toInt < (s.cfg.cap : Int) → n ≤ 4 →
    (s.advance n).ip.toInt = s.ip.toInt + (n : Int)

/-! ### Memory and the operand resolver -/

/-- R31 (a negative address by decision D7), R32, R33: an address outside 0 .. CAP-1 is `AddressOutOfBound` of it; inside, a read answers
the cell and a write changes that cell, no other cell and no other state. -/
def Obligations.EveryAccessIsChecked : Prop :=
  ∀ (s : State) (a : Int) (v : Word),
    ((a < 0 ∨ (s.cfg.cap : Int) ≤ a) →
      checkAddr s a = .error (.addressOutOfBound a) ∧ memRead s a = .error (.addressOutOfBound a) ∧
        memWrite s a v = .error (.addressOutOfBound a)) ∧
    (∀ k : Nat, a = (k : Int) → k < s.cfg.cap →
      checkAddr s a = .ok k ∧ memRead s a = .ok (s.cell k) ∧
        ∃ t, memWrite s a v = .ok t ∧ t = { s with mem := s.mem.set k v } ∧
          (s.mem.wf = true → t.cell k = v) ∧ ∀ j, j ≠ k → t.cell j = s.cell j)

/-- R35: a read right after a write of the same address gives the value written, and a read of any
other address is as before. The premise is that memory is canonical, part of the invariant. -/
def Obligations.ReadAfterWrite : Prop :=
  ∀ (s t : State) (a b : Int) (v : Word), s.mem.wf = true → memWrite s a v = .ok t →
    memRead t a = .ok v ∧ t.mem.wf = true ∧ (b ≠ a → memRead t b = memRead s b)

/-- The canonical form is one: two memories that read alike everywhere are the same data (log 1). -/
def Obligations.MemoriesThatReadAlikeAreEqual : Prop :=
  ∀ m n : Memory, m.wf = true → n.wf = true → (∀ a, m.get a = n.get a) → m = n

/-- R37: the effective address of mode Direct is the parameter, of mode Relative the exact sum of `rb`
and the parameter, or `ArithmeticOverflow` (D2). -/
def Obligations.EffectiveAddressByMode : Prop :=
  ∀ (s : State) (p : Word),
    effectiveAddress s (.direct p) = .ok p ∧
    (fits (s.rb.toInt + p.toInt) →
      ∃ a, effectiveAddress s (.relative p) = .ok a ∧ a.toInt = s.rb.toInt + p.toInt) ∧
    (¬ fits (s.rb.toInt + p.toInt) → effectiveAddress s (.relative p) = .error .arithmeticOverflow)

/-- R38: the value of a source operand in each mode, and the faults of modes Direct and Relative (R31,
R37): a negative address is out of bound by decision D7, and an address sum that does not fit is a fault by
decision D2. -/
def Obligations.SourceValueByMode : Prop :=
  ∀ (s : State) (p : Word),
    readOperand s (.immediate p) = .ok p ∧
    (∀ k : Nat, p.toInt = (k : Int) → k < s.cfg.cap → readOperand s (.direct p) = .ok (s.cell k)) ∧
    ((p.toInt < 0 ∨ (s.cfg.cap : Int) ≤ p.toInt) →
      readOperand s (.direct p) = .error (.addressOutOfBound p.toInt)) ∧
    (∀ k : Nat, s.rb.toInt + p.toInt = (k : Int) → k < s.cfg.cap →
      readOperand s (.relative p) = .ok (s.cell k)) ∧
    (fits (s.rb.toInt + p.toInt) →
      (s.rb.toInt + p.toInt < 0 ∨ (s.cfg.cap : Int) ≤ s.rb.toInt + p.toInt) →
      readOperand s (.relative p) = .error (.addressOutOfBound (s.rb.toInt + p.toInt))) ∧
    (¬ fits (s.rb.toInt + p.toInt) → readOperand s (.relative p) = .error .arithmeticOverflow)

/-- R39: the checked address of a destination operand in each mode, and its faults (R31, R37): a negative
address is out of bound by decision D7, and an address sum that does not fit is a fault by decision D2. -/
def Obligations.DestinationAddressByMode : Prop :=
  ∀ (s : State) (p : Word),
    (∀ k : Nat, p.toInt = (k : Int) → k < s.cfg.cap → writeTarget s (.direct p) = .ok k) ∧
    ((p.toInt < 0 ∨ (s.cfg.cap : Int) ≤ p.toInt) →
      writeTarget s (.direct p) = .error (.addressOutOfBound p.toInt)) ∧
    (∀ k : Nat, s.rb.toInt + p.toInt = (k : Int) → k < s.cfg.cap →
      writeTarget s (.relative p) = .ok k) ∧
    (fits (s.rb.toInt + p.toInt) →
      (s.rb.toInt + p.toInt < 0 ∨ (s.cfg.cap : Int) ≤ s.rb.toInt + p.toInt) →
      writeTarget s (.relative p) = .error (.addressOutOfBound (s.rb.toInt + p.toInt))) ∧
    (¬ fits (s.rb.toInt + p.toInt) → writeTarget s (.relative p) = .error .arithmeticOverflow)

/-! ### The instructions -/

/-- R85 (overflow is a fault by decision D2; both sources are read, in order, by D10 and D11). -/
def Obligations.AddStoresTheExactSum : Prop :=
  EncodesAsF3 Instr.add 1 ∧ StoresResult Instr.add (fun x y => x + y) ∧
    OperandFaults Instr.add (fun x y => x + y) ∧ ResultOverflows Instr.add (fun x y => x + y)

/-- R86 (overflow is a fault by decision D2; the order of the checks is D11's). -/
def Obligations.MulStoresTheExactProduct : Prop :=
  EncodesAsF3 Instr.mul 2 ∧ StoresResult Instr.mul (fun x y => x * y) ∧
    OperandFaults Instr.mul (fun x y => x * y) ∧ ResultOverflows Instr.mul (fun x y => x * y)

/-- R100: signed comparison, and only 0 or 1 is stored; the comparison itself cannot fault. -/
def Obligations.LessThanStoresZeroOrOne : Prop :=
  EncodesAsF3 Instr.lessThan 7 ∧ StoresResult Instr.lessThan (fun x y => if x < y then 1 else 0) ∧
    OperandFaults Instr.lessThan (fun x y => if x < y then 1 else 0)

/-- R101: equality, and only 0 or 1 is stored; the comparison itself cannot fault. -/
def Obligations.EqualsStoresZeroOrOne : Prop :=
  EncodesAsF3 Instr.equals 8 ∧ StoresResult Instr.equals (fun x y => if x = y then 1 else 0) ∧
    OperandFaults Instr.equals (fun x y => if x = y then 1 else 0)

/-- R90: an empty queue suspends, whatever the destination, and changes only `status`; otherwise the
oldest entry moves to the destination and `ip` advances by 2; a bad destination faults without popping. -/
def Obligations.InputPopsOrSuspends : Prop :=
  ∀ (dst : Operand) (l : Location) (s : State), dst.location? = some l →
    encode (.input dst) = [wordOf 3 dst.mode.digit 0 0, dst.param] ∧
    (s.inq = [] → exec (.input dst) s = .next { s with status := .waitingForInput }) ∧
    (∀ v rest d, s.inq = v :: rest → writeTarget s l = .ok d →
      ∃ t, exec (.input dst) s = .next t ∧
        t = { s with mem := s.mem.set d v, inq := rest, ip := s.ip + 2#64 } ∧
        (s.mem.wf = true → t.cell d = v) ∧ ∀ k, k ≠ d → t.cell k = s.cell k) ∧
    (∀ v rest e, s.inq = v :: rest → writeTarget s l = .error e →
      exec (.input dst) s = .next (s.faultEntry e) ∧ (s.faultEntry e).inq = v :: rest)

/-- R91: the value is appended at the back of the log and `ip` advances by 2; an unreadable operand
faults and nothing is appended. -/
def Obligations.OutputAppendsItsOperand : Prop :=
  ∀ (a : Operand) (s : State),
    encode (.output a) = [wordOf 4 a.mode.digit 0 0, a.param] ∧
    (∀ x, readOperand s a = .ok x →
      exec (.output a) s = .next { s with outlog := s.outlog ++ [x], ip := s.ip + 2#64 }) ∧
    (∀ e, readOperand s a = .error e →
      exec (.output a) s = .next (s.faultEntry e) ∧ (s.faultEntry e).outlog = s.outlog)

/-- R95: JumpIfTrue jumps on any nonzero value; the target is not checked (D8) and is read even when the
jump is not taken (D10). -/
def Obligations.JumpIfTrueJumpsOnNonzero : Prop := JumpsWhen Instr.jumpIfTrue (fun x => x ≠ 0) 5

/-- R96: JumpIfFalse jumps on zero; as for JumpIfTrue otherwise (D8, D10). -/
def Obligations.JumpIfFalseJumpsOnZero : Prop := JumpsWhen Instr.jumpIfFalse (fun x => x = 0) 6

/-- R105: `rb` becomes the exact sum of `rb` and the operand, read with the old `rb`, and `ip` advances
by 2; a sum that does not fit is `ArithmeticOverflow(0)`. -/
def Obligations.AdjustRelativeBaseAdds : Prop :=
  ∀ (a : Operand) (s : State),
    encode (.adjustRelativeBase a) = [wordOf 9 a.mode.digit 0 0, a.param] ∧
    (∀ x, readOperand s a = .ok x → fits (s.rb.toInt + x.toInt) →
      ∃ r : Word, r.toInt = s.rb.toInt + x.toInt ∧
        exec (.adjustRelativeBase a) s = .next { s with rb := r, ip := s.ip + 2#64 }) ∧
    (∀ x, readOperand s a = .ok x → ¬ fits (s.rb.toInt + x.toInt) →
      exec (.adjustRelativeBase a) s = .next (s.faultEntry .arithmeticOverflow)) ∧
    (∀ e, readOperand s a = .error e →
      exec (.adjustRelativeBase a) s = .next (s.faultEntry e))

/-- R108 (`ip` advances by decision D9): Halt sets the status and advances `ip` past its word, and changes
nothing else; 99 is its only word; after it `run` executes nothing, `input` still appends, `output` still
returns the log and `status()` is false. -/
def Obligations.HaltStopsTheEngine : Prop :=
  encode .halt = [99#64] ∧
  (∀ (w : Word) (h : Header), decodeHeader w = .ok h → h.op = .halt → w = 99#64) ∧
  ∀ s : State, ∃ t, exec .halt s = .next t ∧ t = { s with status := .halted, ip := s.ip + 1#64 } ∧
    (∀ u, Run t u ↔ u = t) ∧ (∀ v, Transact t (.input v) .unit { t with inq := s.inq ++ [v] }) ∧
    Transact t .output (.log s.outlog) t ∧ Transact t .status (.live false) t

/-- A well-formed instruction always ends in a next state, a term with an Immediate destination is
refused by name in every state (R40; the refusal is the model's, log 6), and every instruction a step
fetches is well formed. -/
def Obligations.OnlyIllFormedTermsAreRefused : Prop :=
  (∀ (i : Instr) (s : State), i.wellFormed = true → ∃ t, exec i s = .next t) ∧
  (∀ (i : Instr) (s : State), i.wellFormed = false → exec i s = .refused .immediateDestination) ∧
  (∀ (i : Instr) (s : State), fetchInstr s = .ok i → i.wellFormed = true)

/-! ### Frames -/

/-- The frame of Add, Mul, LessThan and Equals: besides `ip` and, on a fault, the latch, they change at
most the cell whose address the destination gives (R20, R43). -/
def Obligations.FrameOfTheStoringInstructions : Prop :=
  ∀ (i : Instr) (a b dst : Operand) (l : Location) (s t : State),
    (i = .add a b dst ∨ i = .mul a b dst ∨ i = .lessThan a b dst ∨ i = .equals a b dst) →
    dst.location? = some l → exec i s = .next t →
    t.cfg = s.cfg ∧ t.rb = s.rb ∧ t.inq = s.inq ∧ t.outlog = s.outlog ∧ LatchKeptOrFaulted s t ∧
    (∀ d, writeTarget s l = .ok d → ∀ k, k ≠ d → t.cell k = s.cell k) ∧
    (∀ e, writeTarget s l = .error e → ∀ k, t.cell k = s.cell k)

/-- The frame of Input: besides `ip` and the status, it changes at most the destination cell and takes
at most the front of the queue; suspended or faulted it changes no cell and no entry (R43, R76, R90). -/
def Obligations.FrameOfInput : Prop :=
  ∀ (dst : Operand) (l : Location) (s t : State), dst.location? = some l →
    exec (.input dst) s = .next t →
    t.cfg = s.cfg ∧ t.rb = s.rb ∧ t.outlog = s.outlog ∧
    (LatchKeptOrFaulted s t ∨ t = { s with status := .waitingForInput }) ∧
    (t.inq = s.inq ∨ ∃ v d, s.inq = v :: t.inq ∧ writeTarget s l = .ok d) ∧
    (∀ d, writeTarget s l = .ok d → ∀ k, k ≠ d → t.cell k = s.cell k) ∧
    ((s.inq = [] ∨ ∃ e, writeTarget s l = .error e) → ∀ k, t.cell k = s.cell k)

/-- The frame of Output, the jumps, AdjustRelativeBase and Halt: they store nothing and take nothing
from the queue; only Output changes the log, only AdjustRelativeBase changes `rb`, only Halt sets the
status Halted (R20, R43). -/
def Obligations.FrameOfTheOtherInstructions : Prop :=
  ∀ (a b : Operand) (s t : State),
    (exec (.output a) s = .next t → t.cfg = s.cfg ∧ t.rb = s.rb ∧ t.inq = s.inq ∧
      LatchKeptOrFaulted s t ∧ ∀ k, t.cell k = s.cell k) ∧
    ((exec (.jumpIfTrue a b) s = .next t ∨ exec (.jumpIfFalse a b) s = .next t) →
      t.cfg = s.cfg ∧ t.rb = s.rb ∧ t.inq = s.inq ∧ t.outlog = s.outlog ∧
      LatchKeptOrFaulted s t ∧ ∀ k, t.cell k = s.cell k) ∧
    (exec (.adjustRelativeBase a) s = .next t → t.cfg = s.cfg ∧ t.inq = s.inq ∧
      t.outlog = s.outlog ∧ LatchKeptOrFaulted s t ∧ ∀ k, t.cell k = s.cell k) ∧
    (exec .halt s = .next t → t.cfg = s.cfg ∧ t.rb = s.rb ∧ t.inq = s.inq ∧ t.outlog = s.outlog ∧
      t.cause = s.cause ∧ t.info = s.info ∧ ∀ k, t.cell k = s.cell k)

/-! ### Rules of the whole machine -/

/-- "Mutated only by the AdjustRelativeBase instruction" (R13). -/
def Obligations.OnlyAdjustRelativeBaseChangesRb : Prop :=
  ∀ s t : State, step s = .next t → t.rb ≠ s.rb →
    ∃ a x, fetchInstr s = .ok (.adjustRelativeBase a) ∧ readOperand s a = .ok x ∧
      t.rb.toInt = s.rb.toInt + x.toInt

/-- A cell that a step changes is the destination of the instruction it ran (R43). -/
def Obligations.ChangedCellIsTheDestination : Prop :=
  ∀ (s t : State) (k : Nat), step s = .next t → t.cell k ≠ s.cell k →
    ∃ i dst l, fetchInstr s = .ok i ∧ destinationOf i = some dst ∧ dst.location? = some l ∧
      writeTarget s l = .ok k

/-- The queue loses its front to an Input and the log gains one entry from an Output, and neither
changes otherwise (R16, R17). -/
def Obligations.OnlyInputPopsAndOnlyOutputAppends : Prop :=
  ∀ s t : State, step s = .next t →
    (t.inq = s.inq ∨ ∃ dst v, fetchInstr s = .ok (.input dst) ∧ s.inq = v :: t.inq) ∧
    (t.outlog = s.outlog ∨
      ∃ a x, fetchInstr s = .ok (.output a) ∧ readOperand s a = .ok x ∧ t.outlog = s.outlog ++ [x])

/-- The status leaves Running by Halt, by an Input on an empty queue, or by a fault, and a step changes
it in no other way (R18); that a step of a stopped engine changes nothing is the model's choice (log 5). -/
def Obligations.StatusChangesOnlyAsListed : Prop :=
  ∀ s t : State, step s = .next t → t.status ≠ s.status → s.status = .running ∧
    ((t.status = .halted ∧ fetchInstr s = .ok .halt) ∨
      (t.status = .waitingForInput ∧ s.inq = [] ∧ ∃ dst, fetchInstr s = .ok (.input dst)) ∨
      ∃ e, t = s.faultEntry e)

/-- The output log is never read: entries logged earlier have no influence on a step (R17). -/
def Obligations.LogHasNoInfluence : Prop :=
  ∀ (s t : State) (earlier : List Word), step s = .next t →
    step { s with outlog := earlier ++ s.outlog } = .next { t with outlog := earlier ++ t.outlog }

/-- A step that does not suspend sees of the queue only its front: values queued behind change nothing
but the rest of the queue (R16). -/
def Obligations.LaterInputHasNoInfluence : Prop :=
  ∀ (s t : State) (later : List Word), step s = .next t → t.status ≠ .waitingForInput →
    step { s with inq := s.inq ++ later } = .next { t with inq := t.inq ++ later }

/-! ### Faults and the suspend signal -/

/-- R136 (precision is decision D12): a faulting step sets the status and the latch and nothing else, and the run ends; when the
fetch itself is out of bounds the recorded value is `ip`. -/
def Obligations.FaultsArePreciseAndLatched : Prop :=
  ∀ s t : State, s.status = .running → step s = .next t → t.status = .faulted →
    ∃ e : Raised,
      t = { s with status := .faulted, cause := e.cause, info := e.info } ∧
      t.mem = s.mem ∧ t.ip = s.ip ∧ t.rb = s.rb ∧ t.inq = s.inq ∧ t.outlog = s.outlog ∧
      t.cause.code ∈ [1, 2, 3] ∧ (∀ u, RunLoop t u ↔ u = t) ∧
      t.completion? = some (.fault e.cause e.info) ∧
      ((s.ip.toInt < 0 ∨ (s.cfg.cap : Int) ≤ s.ip.toInt) →
        t.cause = .addressOutOfBound ∧ t.info = t.ip)

/-- R135: the suspend signal is raised only by Input on an empty queue, changes only the status, ends
the run, and the next `run` starts from the very state the Input found. -/
def Obligations.SuspensionIsRecoverable : Prop :=
  ∀ s : State, s.status = .running →
    (∀ dst, fetchInstr s = .ok (.input dst) → s.inq = [] →
      step s = .next { s with status := .waitingForInput }) ∧
    (∀ t, step s = .next t → t.status = .waitingForInput →
      (∃ dst, fetchInstr s = .ok (.input dst)) ∧ s.inq = [] ∧
        t = { s with status := .waitingForInput } ∧ (∀ u, RunLoop t u ↔ u = t) ∧
        t.completion? = some .waitingForInput ∧ t.resume = s)

/-- R138 (decision D13): there is no resumption after a fault: `run` executes nothing and reports the same fault, the
other transactions still work, and only `reset` leaves the status, clearing the latch. That `step` answers
the same state here is the model's choice (log 5): the spec has no step outside a run. -/
def Obligations.FaultedIsLeftOnlyByReset : Prop :=
  ∀ s : State, s.status = .faulted →
    step s = .next s ∧
    (∀ r t, Transact s .run r t ↔ t = s ∧ r = .completion (.fault s.cause s.info)) ∧
    (∀ v, Transact s (.input v) .unit (s.input v)) ∧
    Transact s .output (.log s.outlog) s ∧ Transact s .status (.live false) s ∧
    Transact s .peek (.peeked s.peek) s ∧
    (∀ x r t, Transact s x r t →
      (t.status = .faulted ∧ t.cause = s.cause ∧ t.info = s.info) ∨
        ∃ p, x = .reset p ∧ t.status = .running ∧ t.cause = .none ∧ t.info = 0#64)

/-- "Only Halted is permanent for the VM's remaining lifetime (short of `reset`)" (R18, R80): a halted
engine runs nothing, and no transaction but `reset` changes more than its queue. -/
def Obligations.HaltedIsLeftOnlyByReset : Prop :=
  ∀ s : State, s.status = .halted →
    (∀ r t, Transact s .run r t ↔ t = s ∧ r = .completion .done) ∧
    (∀ x r t, Transact s x r t →
      (∃ q, t = { s with inq := s.inq ++ q }) ∨ ∃ p, x = .reset p ∧ t.status = .running)

/-! ### The invariant -/

/-- Every step keeps the invariant: memory canonical and inside 0 .. CAP-1, the fault latch sound (R11,
R19, R131, R132). -/
def Obligations.StepKeepsTheInvariant : Prop :=
  ∀ s t : State, s.Inv → step s = .next t → t.Inv

/-- The invariant holds at reset. -/
def Obligations.ResetHasTheInvariant : Prop := State.reset.Inv

/-- `new` establishes the invariant and every transaction, runs included, keeps it. -/
def Obligations.TransactionsKeepTheInvariant : Prop :=
  (∀ (cfg : Config) (p : List Word) (s : State), newInstance cfg p = some s → s.Inv) ∧
  (∀ (s t : State) (x : Transaction) (r : Reply), s.Inv → Transact s x r t → t.Inv)

/-! ### Reset and the host's transactions -/

/-- R22: the state after `new` and after `reset`, component by component (cause and info by decision D13,
the status codes by D15). -/
def Obligations.ResetStateIsExactlyTheTable : Prop :=
  ∀ (cfg : Config) (p : List Word), p.length ≤ cfg.cap →
    ∃ s, newInstance cfg p = some s ∧
      (∀ i, i < p.length → s.cell i = p.getD i 0#64) ∧
      (∀ i, p.length ≤ i → i < cfg.cap → s.cell i = 0#64) ∧
      s.ip.toInt = 0 ∧ s.rb.toInt = 0 ∧ s.inq = [] ∧ s.outlog = [] ∧ s.status = .running ∧
      s.status.code = 0 ∧ s.cause.code = 0 ∧ s.info.toInt = 0 ∧ s.cfg = cfg ∧
      ∀ u : State, u.cfg = cfg → ∀ r t, Transact u (.reset p) r t ↔ r = .unit ∧ t = s

/-- A program longer than CAP is refused with `LoadError` and the state kept; the empty program is
accepted, is what `State.reset` holds (log 3), and its first step is `InvalidInstruction(0)` (R119). -/
def Obligations.LongProgramsAreRefused : Prop :=
  (∀ (cfg : Config) (p : List Word), cfg.cap < p.length → newInstance cfg p = none) ∧
  (∀ (s : State) (p : List Word), s.cfg.cap < p.length →
    ∀ r t, Transact s (.reset p) r t ↔ r = .loadError ∧ t = s) ∧
  newInstance Config.standard [] = some State.reset ∧
  step State.reset = .next (State.reset.faultEntry (.invalidInstruction 0#64))

/-- R112: `input` appends at the back, changes nothing else and is accepted in every status. -/
def Obligations.InputTransactionAppends : Prop :=
  ∀ (s : State) (v : Word) (r : Reply) (t : State),
    Transact s (.input v) r t ↔ r = .unit ∧ t = { s with inq := s.inq ++ [v] }

/-- R114: `output` returns the whole log and consumes nothing, and until the next `reset` each earlier
log is a prefix of each later one. -/
def Obligations.OutputReturnsTheWholeLog : Prop :=
  (∀ (s : State) (r : Reply) (t : State), Transact s .output r t ↔ r = .log s.outlog ∧ t = s) ∧
  (∀ (s : State) (x : Transaction) (r : Reply) (t : State), Transact s x r t →
    (∀ p, x ≠ .reset p) → s.outlog <+: t.outlog)

/-- R115 (false when faulted: D23) and R117 (D24): `status` and `peek` change nothing; what each returns. -/
def Obligations.StatusAndPeekOnlyRead : Prop :=
  (∀ (s : State) (r : Reply) (t : State), Transact s .status r t ↔
    t = s ∧ r = .live (decide (s.status = .running ∨ s.status = .waitingForInput))) ∧
  (∀ (s : State) (r : Reply) (t : State), Transact s .peek r t ↔ t = s ∧ r = .peeked s.peek) ∧
  (∀ s : State, (∀ a, a < s.cfg.cap → s.peek.cell? a = some (s.cell a)) ∧ s.peek.ip = s.ip ∧
    s.peek.rb = s.rb ∧ s.peek.status = s.status ∧ s.peek.cause = s.cause ∧ s.peek.info = s.info ∧
    s.peek.inqLength = s.inq.length)

/-- R80 (Halted by decision D14, Faulted by D13): what `run` does, by the status it is called in. -/
def Obligations.RunByStatus : Prop :=
  ∀ s t : State,
    (s.status = .running → (Run s t ↔ RunLoop s t)) ∧
    (s.status = .waitingForInput → (Run s t ↔ RunLoop { s with status := .running } t)) ∧
    (∀ dst, s.status = .waitingForInput → s.inq = [] → fetchInstr s = .ok (.input dst) →
      (Run s t ↔ t = s)) ∧
    (s.status = .halted → (Run s t ↔ t = s) ∧ s.completion? = some .done) ∧
    (s.status = .faulted → (Run s t ↔ t = s) ∧ s.completion? = some (.fault s.cause s.info))

/-- A run that returns has stopped, and its completion code agrees with the status and the latch
(R79, R113). -/
def Obligations.RunReportsWhyItStopped : Prop :=
  ∀ s t : State, Run s t →
    (t.status = .halted ∧ t.completion? = some .done) ∨
    (t.status = .waitingForInput ∧ t.completion? = some .waitingForInput) ∨
    (t.status = .faulted ∧ t.completion? = some (.fault t.cause t.info))

/-- Every transaction is a deterministic function of the state: equal transactions keep equal instances
equal, and `reset` makes the state `new` makes (R154, which the spec marks as derived). -/
def Obligations.TransactionsAreDeterministic : Prop :=
  (∀ (s t u : State) (x : Transaction) (r q : Reply), Transact s x r t → Transact s x q u →
    r = q ∧ t = u) ∧
  (∀ (s t : State) (p : List Word), Transact s (.reset p) .unit t → newInstance s.cfg p = some t)

/-- The fuelled run and the run loop agree: the loop has an end state exactly when some fuel is enough
to reach it (R79, R81). -/
def Obligations.FuelledRunIsTheRunLoop : Prop :=
  ∀ s t : State, RunLoop s t ↔ ∃ n, runFuel n s = some t

/-- A taken jump to its own address never returns: the run has no end state (R81, R95). -/
def Obligations.SelfJumpNeverReturns : Prop :=
  ∀ (s : State) (a b : Operand) (x : Word), s.status = .running →
    fetchInstr s = .ok (.jumpIfTrue a b) → readOperand s a = .ok x → x.toInt ≠ 0 →
    readOperand s b = .ok s.ip → ∀ t, ¬ RunLoop s t

/-- A starved Input is retried once input has come, neither skipped nor doubled: a run that suspends,
then `input(v)`, then `run` ends as a run does that had the value queued from the suspended Input on
(R76, R80, R90). -/
def Obligations.StarvedInputIsRetried : Prop :=
  ∀ (s t u : State) (v : Word) (dst : Operand), s.status = .running → s.inq = [] →
    fetchInstr s = .ok (.input dst) → Run s t →
    (Run (t.input v) u ↔ RunLoop { s with inq := [v] } u)

/-- "`Running` (only before the first run since reset)" (R24): a running engine that the host can
observe is as `new` made it but for queued input. -/
def Obligations.ObservedRunningIsFresh : Prop :=
  ∀ s : State, Observable s → s.status = .running →
    ∃ p t, newInstance s.cfg p = some t ∧ s = { t with inq := s.inq }

/-- Instances share nothing: a transaction on one leaves every other as it was, and transactions on two
different instances can be exchanged (R21, R121). -/
def Obligations.InstancesAreIndependent : Prop :=
  (∀ (f g : Fleet) (k j : Nat) (x : Transaction) (r : Reply), FleetTransact f k x r g → j ≠ k →
    g[j]? = f[j]?) ∧
  (∀ (f g h : Fleet) (k j : Nat) (x y : Transaction) (r q : Reply), j ≠ k →
    FleetTransact f k x r g → FleetTransact g j y q h →
    ∃ g', FleetTransact f j y q g' ∧ FleetTransact g' k x r h)

/-- A pipeline turn drives one instance, whose status then is not Running, and hands on its most
recent output; the other instances are as they were. The pipeline ends with `status()` false for every
instance, so all Halted where none has faulted (that a faulted one counts as done is the model's choice,
log 14). A pass that leaves some instance live is the beginning of the pipeline, which goes on from the
first instance with the pass's last signal (R122). -/
def Obligations.PipelineTurnDrivesOneInstance : Prop :=
  (∀ (f g : Fleet) (k : Nat) (v w : Word), PipelineTurn f k v g w →
    (∀ j, j ≠ k → g[j]? = f[j]?) ∧
    ∃ t, g[k]? = some t ∧ t.status ≠ .running ∧ t.output.getLast? = some w) ∧
  (∀ (f g : Fleet) (k : Nat) (v w : Word), PipelineLoop k f v g w →
    g.length = f.length ∧ (∀ s ∈ g, s.isLive = false) ∧
    ((∀ s ∈ g, s.status ≠ .faulted) → ∀ s ∈ g, s.status = .halted)) ∧
  (∀ (f g : Fleet) (v w : Word), PipelinePass f v g w → (∃ s ∈ g, s.isLive = true) →
    ∀ (h : Fleet) (x : Word), PipelineLoop 0 f v h x ↔ PipelineLoop 0 g w h x)

/-- In a safe run every running state reached holds, at `ip`, a legal instruction all of whose cells
are inside memory, and that instruction executes without a fault (R130, R136). -/
def Obligations.SafeRunsFetchLegalInstructions : Prop :=
  ∀ s t : State, SafeFrom s → Reaches s t → t.status = .running →
    ∃ i u, fetchInstr t = .ok i ∧ exec i t = .next u ∧ u.status ≠ .faulted

/-- The host's placement of a table word is fetched and run by the very next step (log 10, log 11), on
every engine with room for the longest instruction. -/
def Obligations.PlacedWordIsRunNext : Prop :=
  ∀ (s : State) (nbits w : Nat) (i : Instr), s.mem.wf = true → 4 ≤ s.cfg.cap →
    decodeTableWord nbits w = some i →
    step (s.withFetchWord nbits w) = exec i (s.withFetchWord nbits w)
end

