-- ==== Sys2Proof/Laws/State.lean ====
section
/-! SUPPORT. One lemma per field of the state per named update, true by rfl. -/

namespace Sys2Proof.Machine

section
variable (s : State)

@[simp] theorem State.setCell_cfg (a : Nat) (v : Word) : (s.setCell a v).cfg = s.cfg := rfl
@[simp] theorem State.setCell_mem (a : Nat) (v : Word) : (s.setCell a v).mem = s.mem.set a v := rfl
@[simp] theorem State.setCell_ip (a : Nat) (v : Word) : (s.setCell a v).ip = s.ip := rfl
@[simp] theorem State.setCell_rb (a : Nat) (v : Word) : (s.setCell a v).rb = s.rb := rfl
@[simp] theorem State.setCell_inq (a : Nat) (v : Word) : (s.setCell a v).inq = s.inq := rfl
@[simp] theorem State.setCell_outlog (a : Nat) (v : Word) : (s.setCell a v).outlog = s.outlog := rfl
@[simp] theorem State.setCell_status (a : Nat) (v : Word) : (s.setCell a v).status = s.status := rfl
@[simp] theorem State.setCell_cause (a : Nat) (v : Word) : (s.setCell a v).cause = s.cause := rfl
@[simp] theorem State.setCell_info (a : Nat) (v : Word) : (s.setCell a v).info = s.info := rfl

@[simp] theorem State.advance_cfg (n : Nat) : (s.advance n).cfg = s.cfg := rfl
@[simp] theorem State.advance_mem (n : Nat) : (s.advance n).mem = s.mem := rfl
@[simp] theorem State.advance_ip (n : Nat) : (s.advance n).ip = s.ip + BitVec.ofNat 64 n := rfl
@[simp] theorem State.advance_rb (n : Nat) : (s.advance n).rb = s.rb := rfl
@[simp] theorem State.advance_inq (n : Nat) : (s.advance n).inq = s.inq := rfl
@[simp] theorem State.advance_outlog (n : Nat) : (s.advance n).outlog = s.outlog := rfl
@[simp] theorem State.advance_status (n : Nat) : (s.advance n).status = s.status := rfl
@[simp] theorem State.advance_cause (n : Nat) : (s.advance n).cause = s.cause := rfl
@[simp] theorem State.advance_info (n : Nat) : (s.advance n).info = s.info := rfl

@[simp] theorem State.jump_cfg (v : Word) : (s.jump v).cfg = s.cfg := rfl
@[simp] theorem State.jump_mem (v : Word) : (s.jump v).mem = s.mem := rfl
@[simp] theorem State.jump_ip (v : Word) : (s.jump v).ip = v := rfl
@[simp] theorem State.jump_rb (v : Word) : (s.jump v).rb = s.rb := rfl
@[simp] theorem State.jump_inq (v : Word) : (s.jump v).inq = s.inq := rfl
@[simp] theorem State.jump_outlog (v : Word) : (s.jump v).outlog = s.outlog := rfl
@[simp] theorem State.jump_status (v : Word) : (s.jump v).status = s.status := rfl
@[simp] theorem State.jump_cause (v : Word) : (s.jump v).cause = s.cause := rfl
@[simp] theorem State.jump_info (v : Word) : (s.jump v).info = s.info := rfl

@[simp] theorem State.setRb_cfg (v : Word) : (s.setRb v).cfg = s.cfg := rfl
@[simp] theorem State.setRb_mem (v : Word) : (s.setRb v).mem = s.mem := rfl
@[simp] theorem State.setRb_ip (v : Word) : (s.setRb v).ip = s.ip := rfl
@[simp] theorem State.setRb_rb (v : Word) : (s.setRb v).rb = v := rfl
@[simp] theorem State.setRb_inq (v : Word) : (s.setRb v).inq = s.inq := rfl
@[simp] theorem State.setRb_outlog (v : Word) : (s.setRb v).outlog = s.outlog := rfl
@[simp] theorem State.setRb_status (v : Word) : (s.setRb v).status = s.status := rfl
@[simp] theorem State.setRb_cause (v : Word) : (s.setRb v).cause = s.cause := rfl
@[simp] theorem State.setRb_info (v : Word) : (s.setRb v).info = s.info := rfl

@[simp] theorem State.setInq_cfg (q : List Word) : (s.setInq q).cfg = s.cfg := rfl
@[simp] theorem State.setInq_mem (q : List Word) : (s.setInq q).mem = s.mem := rfl
@[simp] theorem State.setInq_ip (q : List Word) : (s.setInq q).ip = s.ip := rfl
@[simp] theorem State.setInq_rb (q : List Word) : (s.setInq q).rb = s.rb := rfl
@[simp] theorem State.setInq_inq (q : List Word) : (s.setInq q).inq = q := rfl
@[simp] theorem State.setInq_outlog (q : List Word) : (s.setInq q).outlog = s.outlog := rfl
@[simp] theorem State.setInq_status (q : List Word) : (s.setInq q).status = s.status := rfl
@[simp] theorem State.setInq_cause (q : List Word) : (s.setInq q).cause = s.cause := rfl
@[simp] theorem State.setInq_info (q : List Word) : (s.setInq q).info = s.info := rfl

@[simp] theorem State.appendOutput_cfg (v : Word) : (s.appendOutput v).cfg = s.cfg := rfl
@[simp] theorem State.appendOutput_mem (v : Word) : (s.appendOutput v).mem = s.mem := rfl
@[simp] theorem State.appendOutput_ip (v : Word) : (s.appendOutput v).ip = s.ip := rfl
@[simp] theorem State.appendOutput_rb (v : Word) : (s.appendOutput v).rb = s.rb := rfl
@[simp] theorem State.appendOutput_inq (v : Word) : (s.appendOutput v).inq = s.inq := rfl
@[simp] theorem State.appendOutput_outlog (v : Word) : (s.appendOutput v).outlog = s.outlog ++ [v] := rfl
@[simp] theorem State.appendOutput_status (v : Word) : (s.appendOutput v).status = s.status := rfl
@[simp] theorem State.appendOutput_cause (v : Word) : (s.appendOutput v).cause = s.cause := rfl
@[simp] theorem State.appendOutput_info (v : Word) : (s.appendOutput v).info = s.info := rfl

@[simp] theorem State.faultEntry_cfg (e : Raised) : (s.faultEntry e).cfg = s.cfg := rfl
@[simp] theorem State.faultEntry_mem (e : Raised) : (s.faultEntry e).mem = s.mem := rfl
@[simp] theorem State.faultEntry_ip (e : Raised) : (s.faultEntry e).ip = s.ip := rfl
@[simp] theorem State.faultEntry_rb (e : Raised) : (s.faultEntry e).rb = s.rb := rfl
@[simp] theorem State.faultEntry_inq (e : Raised) : (s.faultEntry e).inq = s.inq := rfl
@[simp] theorem State.faultEntry_outlog (e : Raised) : (s.faultEntry e).outlog = s.outlog := rfl
@[simp] theorem State.faultEntry_status (e : Raised) : (s.faultEntry e).status = .faulted := rfl
@[simp] theorem State.faultEntry_cause (e : Raised) : (s.faultEntry e).cause = e.cause := rfl
@[simp] theorem State.faultEntry_info (e : Raised) : (s.faultEntry e).info = e.info := rfl

@[simp] theorem State.suspend_cfg : (s.suspend).cfg = s.cfg := rfl
@[simp] theorem State.suspend_mem : (s.suspend).mem = s.mem := rfl
@[simp] theorem State.suspend_ip : (s.suspend).ip = s.ip := rfl
@[simp] theorem State.suspend_rb : (s.suspend).rb = s.rb := rfl
@[simp] theorem State.suspend_inq : (s.suspend).inq = s.inq := rfl
@[simp] theorem State.suspend_outlog : (s.suspend).outlog = s.outlog := rfl
@[simp] theorem State.suspend_status : (s.suspend).status = .waitingForInput := rfl
@[simp] theorem State.suspend_cause : (s.suspend).cause = s.cause := rfl
@[simp] theorem State.suspend_info : (s.suspend).info = s.info := rfl

@[simp] theorem State.setHalted_cfg : (s.setHalted).cfg = s.cfg := rfl
@[simp] theorem State.setHalted_mem : (s.setHalted).mem = s.mem := rfl
@[simp] theorem State.setHalted_ip : (s.setHalted).ip = s.ip := rfl
@[simp] theorem State.setHalted_rb : (s.setHalted).rb = s.rb := rfl
@[simp] theorem State.setHalted_inq : (s.setHalted).inq = s.inq := rfl
@[simp] theorem State.setHalted_outlog : (s.setHalted).outlog = s.outlog := rfl
@[simp] theorem State.setHalted_status : (s.setHalted).status = .halted := rfl
@[simp] theorem State.setHalted_cause : (s.setHalted).cause = s.cause := rfl
@[simp] theorem State.setHalted_info : (s.setHalted).info = s.info := rfl

@[simp] theorem State.input_cfg (v : Word) : (s.input v).cfg = s.cfg := rfl
@[simp] theorem State.input_mem (v : Word) : (s.input v).mem = s.mem := rfl
@[simp] theorem State.input_ip (v : Word) : (s.input v).ip = s.ip := rfl
@[simp] theorem State.input_rb (v : Word) : (s.input v).rb = s.rb := rfl
@[simp] theorem State.input_inq (v : Word) : (s.input v).inq = s.inq ++ [v] := rfl
@[simp] theorem State.input_outlog (v : Word) : (s.input v).outlog = s.outlog := rfl
@[simp] theorem State.input_status (v : Word) : (s.input v).status = s.status := rfl
@[simp] theorem State.input_cause (v : Word) : (s.input v).cause = s.cause := rfl
@[simp] theorem State.input_info (v : Word) : (s.input v).info = s.info := rfl

@[simp] theorem State.setCell_cell (a b : Nat) (v : Word) :
    (s.setCell a v).cell b = (s.mem.set a v).get b := rfl
@[simp] theorem State.advance_cell (n b : Nat) : (s.advance n).cell b = s.cell b := rfl
@[simp] theorem State.jump_cell (v : Word) (b : Nat) : (s.jump v).cell b = s.cell b := rfl
@[simp] theorem State.setRb_cell (v : Word) (b : Nat) : (s.setRb v).cell b = s.cell b := rfl
@[simp] theorem State.setInq_cell (q : List Word) (b : Nat) : (s.setInq q).cell b = s.cell b := rfl
@[simp] theorem State.appendOutput_cell (v : Word) (b : Nat) :
    (s.appendOutput v).cell b = s.cell b := rfl
@[simp] theorem State.faultEntry_cell (e : Raised) (b : Nat) :
    (s.faultEntry e).cell b = s.cell b := rfl
@[simp] theorem State.suspend_cell (b : Nat) : s.suspend.cell b = s.cell b := rfl
@[simp] theorem State.setHalted_cell (b : Nat) : s.setHalted.cell b = s.cell b := rfl
@[simp] theorem State.input_cell (v : Word) (b : Nat) : (s.input v).cell b = s.cell b := rfl

/-- What `run` does before its first step: only a suspended engine changes, and only its status. -/
theorem State.resume_cases :
    (s.status = .waitingForInput ∧ s.resume = { s with status := .running }) ∨
      (s.status ≠ .waitingForInput ∧ s.resume = s) := by
  unfold State.resume
  cases h : s.status <;> simp

end

end Sys2Proof.Machine
end

