-- ==== Sys2Proof/Laws/Memory.lean ====
section
/-! SUPPORT. Memory: reading after writing, the canonical form and its preservation, and that equal
memories are equal lists. -/

namespace Sys2Proof.Machine

@[simp] theorem Memory.get_nil (a : Nat) : Memory.get [] a = 0#64 := rfl

theorem Memory.get_cons (k : Nat) (x : Word) (m : Memory) (a : Nat) :
    Memory.get ((k, x) :: m) a = if k = a then x else Memory.get m a := rfl

theorem Memory.wfFrom_cons {lo k : Nat} {x : Word} {m : Memory} :
    Memory.wfFrom lo ((k, x) :: m) = true ↔ lo ≤ k ∧ x ≠ 0#64 ∧ Memory.wfFrom (k + 1) m = true := by
  simp [Memory.wfFrom, and_assoc]

theorem Memory.wfFrom_mono {lo lo' : Nat} {m : Memory} (h : lo' ≤ lo)
    (hm : Memory.wfFrom lo m = true) : Memory.wfFrom lo' m = true := by
  cases m with
  | nil => rfl
  | cons c m =>
    rw [Memory.wfFrom_cons] at hm ⊢
    exact ⟨h.trans hm.1, hm.2⟩

/-- A cell below every listed address holds 0. -/
theorem Memory.get_below {lo a : Nat} {m : Memory} (hm : Memory.wfFrom lo m = true) (h : a < lo) :
    Memory.get m a = 0#64 := by
  induction m generalizing lo with
  | nil => rfl
  | cons c m ih =>
    obtain ⟨k, x⟩ := c
    rw [Memory.wfFrom_cons] at hm
    rw [Memory.get_cons, if_neg (by omega)]
    exact ih hm.2.2 (by omega)

/-- A write leaves every other cell alone, in any list. -/
theorem Memory.get_set_ne {m : Memory} {a b : Nat} {v : Word} (h : b ≠ a) :
    Memory.get (Memory.set m a v) b = Memory.get m b := by
  induction m with
  | nil => by_cases hv : v = 0#64 <;> simp [Memory.set, hv, Memory.get_cons, Ne.symm h]
  | cons c m ih =>
    obtain ⟨k, x⟩ := c
    rcases Nat.lt_trichotomy a k with hk | hk | hk
    · by_cases hv : v = 0#64 <;> simp [Memory.set, hk, hv, Memory.get_cons, Ne.symm h]
    · subst hk
      by_cases hv : v = 0#64 <;> simp [Memory.set, hv, Memory.get_cons, Ne.symm h]
    · simp [Memory.set, Nat.not_lt.mpr hk.le, Nat.ne_of_gt hk, Memory.get_cons, ih]

/-- A read of the cell just written gives the value, in a canonical memory. -/
theorem Memory.get_set_self {m : Memory} {lo a : Nat} {v : Word} (hm : Memory.wfFrom lo m = true) :
    Memory.get (Memory.set m a v) a = v := by
  induction m generalizing lo with
  | nil => by_cases hv : v = 0#64 <;> simp [Memory.set, hv, Memory.get_cons]
  | cons c m ih =>
    obtain ⟨k, x⟩ := c
    rw [Memory.wfFrom_cons] at hm
    rcases Nat.lt_trichotomy a k with hk | hk | hk
    · by_cases hv : v = 0#64
      · simp [Memory.set, hk, hv, Memory.get_cons, Nat.ne_of_gt hk,
          Memory.get_below hm.2.2 (show a < k + 1 by omega)]
      · simp [Memory.set, hk, hv, Memory.get_cons]
    · subst hk
      by_cases hv : v = 0#64
      · simp [Memory.set, hv, Memory.get_below hm.2.2 (Nat.lt_succ_self a)]
      · simp [Memory.set, hv, Memory.get_cons]
    · simp [Memory.set, Nat.not_lt.mpr hk.le, Nat.ne_of_gt hk, Nat.ne_of_lt hk, Memory.get_cons,
        ih hm.2.2]

/-- A write keeps the canonical form. -/
theorem Memory.set_wfFrom {m : Memory} {lo a : Nat} {v : Word} (hm : Memory.wfFrom lo m = true)
    (ha : lo ≤ a) : Memory.wfFrom lo (Memory.set m a v) = true := by
  induction m generalizing lo with
  | nil => by_cases hv : v = 0#64 <;> simp [Memory.set, hv, Memory.wfFrom, ha]
  | cons c m ih =>
    obtain ⟨k, x⟩ := c
    have hm' := Memory.wfFrom_cons.mp hm
    rcases Nat.lt_trichotomy a k with hk | hk | hk
    · by_cases hv : v = 0#64
      · simpa [Memory.set, hk, hv] using hm
      · simp only [Memory.set, hk, hv, if_true, if_false]
        exact Memory.wfFrom_cons.mpr ⟨ha, hv, Memory.wfFrom_cons.mpr ⟨hk, hm'.2⟩⟩
    · subst hk
      by_cases hv : v = 0#64
      · simpa [Memory.set, hv] using Memory.wfFrom_mono (by omega) hm'.2.2
      · simpa [Memory.set, hv] using Memory.wfFrom_cons.mpr ⟨ha, hv, hm'.2.2⟩
    · simp only [Memory.set, Nat.not_lt.mpr hk.le, Nat.ne_of_gt hk, if_false]
      exact Memory.wfFrom_cons.mpr ⟨hm'.1, hm'.2.1, ih hm'.2.2 hk⟩

theorem Memory.set_wf {m : Memory} {a : Nat} {v : Word} (hm : m.wf = true) :
    (Memory.set m a v).wf = true := Memory.set_wfFrom hm (Nat.zero_le a)

theorem Memory.below_cons {cap k : Nat} {x : Word} {m : Memory} :
    Memory.below cap ((k, x) :: m) = true ↔ k < cap ∧ Memory.below cap m = true := by
  simp [Memory.below]

/-- A write inside memory keeps every listed cell inside memory. -/
theorem Memory.set_below {m : Memory} {cap a : Nat} {v : Word} (hm : Memory.below cap m = true)
    (ha : a < cap) : Memory.below cap (Memory.set m a v) = true := by
  induction m with
  | nil => by_cases hv : v = 0#64 <;> simp [Memory.set, hv, Memory.below, ha]
  | cons c m ih =>
    obtain ⟨k, x⟩ := c
    have hm' := Memory.below_cons.mp hm
    simp only [Memory.set]
    split
    · split
      · exact hm
      · exact Memory.below_cons.mpr ⟨ha, hm⟩
    · split
      · split
        · exact hm'.2
        · exact Memory.below_cons.mpr ⟨ha, hm'.2⟩
      · exact Memory.below_cons.mpr ⟨hm'.1, ih hm'.2⟩

theorem Memory.load_wfFrom (a : Nat) (vs : List Word) : Memory.wfFrom a (Memory.load a vs) = true := by
  induction vs generalizing a with
  | nil => rfl
  | cons v vs ih =>
    by_cases hv : v = 0#64
    · simpa [Memory.load, hv] using Memory.wfFrom_mono (Nat.le_succ a) (ih (a + 1))
    · simpa [Memory.load, hv] using Memory.wfFrom_cons.mpr ⟨Nat.le_refl a, hv, ih (a + 1)⟩

/-- Loading a program gives a canonical memory. -/
theorem Memory.load_wf (vs : List Word) : (Memory.load 0 vs).wf = true := Memory.load_wfFrom 0 vs

theorem Memory.load_below {cap : Nat} (a : Nat) (vs : List Word) (h : a + vs.length ≤ cap) :
    Memory.below cap (Memory.load a vs) = true := by
  induction vs generalizing a with
  | nil => rfl
  | cons v vs ih =>
    simp only [List.length_cons] at h
    have := ih (a + 1) (by omega)
    by_cases hv : v = 0#64
    · simpa [Memory.load, hv] using this
    · simpa [Memory.load, hv] using Memory.below_cons.mpr ⟨(by omega : a < cap), this⟩

/-- A loaded memory holds the program from its first address on, and 0 elsewhere. -/
theorem Memory.get_load (a : Nat) (vs : List Word) (b : Nat) :
    Memory.get (Memory.load a vs) b = if a ≤ b then vs.getD (b - a) 0#64 else 0#64 := by
  induction vs generalizing a with
  | nil => simp [Memory.load]
  | cons v vs ih =>
    rcases Nat.lt_trichotomy b a with h | h | h
    · by_cases hv : v = 0#64
      · simp [Memory.load, hv, ih, Nat.not_le.mpr h, show ¬ a + 1 ≤ b by omega]
      · simp [Memory.load, hv, ih, Memory.get_cons, Nat.not_le.mpr h, show ¬ a + 1 ≤ b by omega,
          show a ≠ b by omega]
    · subst h
      by_cases hv : v = 0#64 <;> simp [Memory.load, hv, ih, Memory.get_cons]
    · obtain ⟨d, rfl⟩ : ∃ d, b = a + 1 + d := ⟨b - (a + 1), by omega⟩
      by_cases hv : v = 0#64
      · simp [Memory.load, hv, ih, show a + 1 + d - a = d + 1 by omega, show a ≤ a + 1 + d by omega]
      · simp [Memory.load, hv, ih, Memory.get_cons, show a + 1 + d - a = d + 1 by omega,
          show a ≤ a + 1 + d by omega, show a ≠ a + 1 + d by omega]

end Sys2Proof.Machine
end

