-- ==== Sys2Proof/Laws/Ops.lean ====
section
/-! SUPPORT. One lemma for each shared operation that says everything it can do, for later proofs to
cite instead of unfolding it. -/

namespace Sys2Proof.Machine

/-- Binding two steps that can raise: both succeed, or the first that raises decides. -/
theorem bind_eq_ok {ε α β : Type} {x : Except ε α} {f : α → Except ε β} {b : β} :
    (x >>= f) = .ok b ↔ ∃ a, x = .ok a ∧ f a = .ok b := by
  cases x <;> simp [bind, Except.bind]

theorem bind_eq_error {ε α β : Type} {x : Except ε α} {f : α → Except ε β} {e : ε} :
    (x >>= f) = .error e ↔ x = .error e ∨ ∃ a, x = .ok a ∧ f a = .error e := by
  cases x <;> simp [bind, Except.bind]

theorem fits_toInt (w : Word) : fits w.toInt := by
  have h1 := BitVec.le_toInt w
  have h2 := @BitVec.toInt_lt 64 w
  constructor <;> simp only [minInt, maxInt] <;> omega

/-- An integer that fits is the value of the datum made from it. -/
theorem toInt_ofInt_of_fits {v : Int} (h : fits v) : (BitVec.ofInt 64 v).toInt = v := by
  simp only [fits, minInt, maxInt] at h
  rw [BitVec.toInt_ofInt]
  exact Int.bmod_eq_of_le (by omega) (by omega)

/-- `narrow` answers the exact integer, if it fits. -/
theorem narrow_eq_ok {v : Int} {w : Word} : narrow v = .ok w ↔ w.toInt = v := by
  unfold narrow
  split
  · rename_i h
    constructor
    · intro hw
      cases hw
      exact toInt_ofInt_of_fits h
    · rintro rfl
      rw [BitVec.ofInt_toInt]
  · rename_i h
    constructor
    · intro hw
      cases hw
    · rintro rfl
      exact absurd (fits_toInt w) h

theorem narrow_eq_error {v : Int} {e : Raised} :
    narrow v = .error e ↔ ¬ fits v ∧ e = .arithmeticOverflow := by
  unfold narrow
  split <;> simp_all [eq_comm]

theorem checkAddr_eq_ok {s : State} {a : Int} {k : Nat} :
    checkAddr s a = .ok k ↔ a = (k : Int) ∧ k < s.cfg.cap := by
  unfold checkAddr
  split
  · simp only [reduceCtorEq, false_iff]
    omega
  · simp only [Except.ok.injEq]
    omega

theorem checkAddr_eq_error {s : State} {a : Int} {e : Raised} :
    checkAddr s a = .error e ↔ (a < 0 ∨ (s.cfg.cap : Int) ≤ a) ∧ e = .addressOutOfBound a := by
  unfold checkAddr
  split <;> simp_all [eq_comm]

theorem memRead_eq_ok {s : State} {a : Int} {w : Word} :
    memRead s a = .ok w ↔ ∃ k : Nat, a = (k : Int) ∧ k < s.cfg.cap ∧ w = s.cell k := by
  simp only [memRead, bind_eq_ok, checkAddr_eq_ok, Except.ok.injEq, and_assoc, @eq_comm _ w]

theorem memRead_eq_error {s : State} {a : Int} {e : Raised} :
    memRead s a = .error e ↔ (a < 0 ∨ (s.cfg.cap : Int) ≤ a) ∧ e = .addressOutOfBound a := by
  simp [memRead, bind_eq_error, checkAddr_eq_error]

theorem memWrite_eq_ok {s t : State} {a : Int} {v : Word} :
    memWrite s a v = .ok t ↔ ∃ k : Nat, a = (k : Int) ∧ k < s.cfg.cap ∧ t = s.setCell k v := by
  simp only [memWrite, bind_eq_ok, checkAddr_eq_ok, Except.ok.injEq, and_assoc, @eq_comm _ t]

theorem memWrite_eq_error {s : State} {a : Int} {v : Word} {e : Raised} :
    memWrite s a v = .error e ↔ (a < 0 ∨ (s.cfg.cap : Int) ≤ a) ∧ e = .addressOutOfBound a := by
  simp [memWrite, bind_eq_error, checkAddr_eq_error]

/-- What resolving an operand can raise: overflow of the address adder, or an address that fits 64
bits and lies outside memory. -/
def AddressFault (s : State) (e : Raised) : Prop :=
  e = .arithmeticOverflow ∨
    ∃ a : Int, fits a ∧ (a < 0 ∨ (s.cfg.cap : Int) ≤ a) ∧ e = .addressOutOfBound a

theorem effectiveAddress_eq_error {s : State} {l : Location} {e : Raised}
    (h : effectiveAddress s l = .error e) : e = .arithmeticOverflow := by
  cases l with
  | direct p => cases h
  | relative p => exact (narrow_eq_error.mp h).2

theorem writeTarget_eq_ok {s : State} {l : Location} {k : Nat} :
    writeTarget s l = .ok k ↔
      ∃ a, effectiveAddress s l = .ok a ∧ a.toInt = (k : Int) ∧ k < s.cfg.cap := by
  simp only [writeTarget, bind_eq_ok, checkAddr_eq_ok]

theorem writeTarget_lt {s : State} {l : Location} {k : Nat} (h : writeTarget s l = .ok k) :
    k < s.cfg.cap := by
  obtain ⟨_, _, _, hk⟩ := writeTarget_eq_ok.mp h
  exact hk

theorem writeTarget_eq_error {s : State} {l : Location} {e : Raised}
    (h : writeTarget s l = .error e) : AddressFault s e := by
  rcases bind_eq_error.mp h with h | ⟨a, _, h⟩
  · exact .inl (effectiveAddress_eq_error h)
  · exact .inr ⟨a.toInt, fits_toInt a, checkAddr_eq_error.mp h⟩

theorem readOperand_eq_error {s : State} {o : Operand} {e : Raised}
    (h : readOperand s o = .error e) : AddressFault s e := by
  cases o with
  | immediate p => cases h
  | direct p =>
    rcases bind_eq_error.mp h with h | ⟨a, _, h⟩
    · exact .inl (effectiveAddress_eq_error h)
    · exact .inr ⟨a.toInt, fits_toInt a, memRead_eq_error.mp h⟩
  | relative p =>
    rcases bind_eq_error.mp h with h | ⟨a, _, h⟩
    · exact .inl (effectiveAddress_eq_error h)
    · exact .inr ⟨a.toInt, fits_toInt a, memRead_eq_error.mp h⟩

theorem aluAdd_eq_error {x y : Word} {e : Raised} (h : aluAdd x y = .error e) :
    e = .arithmeticOverflow := (narrow_eq_error.mp h).2

theorem aluMul_eq_error {x y : Word} {e : Raised} (h : aluMul x y = .error e) :
    e = .arithmeticOverflow := (narrow_eq_error.mp h).2

theorem fetchCells_zero (s : State) (a : Int) : fetchCells s a 0 = .ok [] := rfl

theorem fetchCells_succ_eq_ok {s : State} {a : Int} {n : Nat} {ws : List Word} :
    fetchCells s a (n + 1) = .ok ws ↔
      ∃ w vs, memRead s a = .ok w ∧ fetchCells s (a + 1) n = .ok vs ∧ ws = w :: vs := by
  simp only [fetchCells, bind_eq_ok, Except.ok.injEq]
  constructor
  · rintro ⟨w, hw, vs, hvs, rfl⟩
    exact ⟨w, vs, hw, hvs, rfl⟩
  · rintro ⟨w, vs, hw, hvs, rfl⟩
    exact ⟨w, hw, vs, hvs, rfl⟩

/-- A parameter fetch that raises names the first cell out of bounds. -/
theorem fetchCells_eq_error {s : State} {a : Int} {n : Nat} {e : Raised}
    (h : fetchCells s a n = .error e) :
    ∃ k : Nat, k < n ∧ (a + k < 0 ∨ (s.cfg.cap : Int) ≤ a + k) ∧ e = .addressOutOfBound (a + k) := by
  induction n generalizing a with
  | zero => cases h
  | succ n ih =>
    rcases bind_eq_error.mp h with h | ⟨w, _, h⟩
    · have := memRead_eq_error.mp h
      exact ⟨0, by omega, by simpa using this⟩
    · rcases bind_eq_error.mp h with h | ⟨vs, _, h⟩
      · obtain ⟨k, hk, hb, he⟩ := ih h
        exact ⟨k + 1, by omega, by push_cast; omega, by rw [he]; push_cast; ring_nf⟩
      · cases h

/-- A fetch succeeds when the word is legal and all its parameters are inside memory. -/
theorem fetchInstr_eq_ok {s : State} {i : Instr} :
    fetchInstr s = .ok i ↔ ∃ w h ps, memRead s s.ip.toInt = .ok w ∧ decodeHeader w = .ok h ∧
      fetchCells s (s.ip.toInt + 1) h.op.arity = .ok ps ∧ i = h.instrOf ps := by
  simp only [fetchInstr, bind_eq_ok]
  constructor
  · rintro ⟨w, hw, hi⟩
    cases hh : decodeHeader w with
    | error e => simp [hh] at hi
    | ok h =>
      simp only [hh, bind_eq_ok, Except.ok.injEq] at hi
      obtain ⟨ps, hps, rfl⟩ := hi
      exact ⟨w, h, ps, hw, hh, hps, rfl⟩
  · rintro ⟨w, h, ps, hw, hh, hps, rfl⟩
    exact ⟨w, hw, by simp [hh, bind_eq_ok, hps]⟩

/-- What a fetch can raise: the instruction word or a parameter out of bounds, or an illegal word. -/
theorem fetchInstr_eq_error {s : State} {e : Raised} (h : fetchInstr s = .error e) :
    (∃ a : Int, fits a ∧ (a < 0 ∨ (s.cfg.cap : Int) ≤ a) ∧ e = .addressOutOfBound a) ∨
      ∃ w d, decodeHeader w = .error d ∧ e = .invalidInstruction w := by
  rcases bind_eq_error.mp h with h | ⟨w, hw, h⟩
  · exact .inl ⟨s.ip.toInt, fits_toInt _, memRead_eq_error.mp h⟩
  · cases hh : decodeHeader w with
    | error d =>
      simp only [hh, Except.error.injEq] at h
      exact .inr ⟨w, d, hh, h.symm⟩
    | ok hd =>
      simp only [hh] at h
      rcases bind_eq_error.mp h with h | ⟨ps, _, h⟩
      · obtain ⟨k, hk, hb, he⟩ := fetchCells_eq_error h
        refine .inl ⟨_, ?_, hb, he⟩
        obtain ⟨j, hj, hc, _⟩ := memRead_eq_ok.mp hw
        have hcap := s.cfg.cap_le
        have ha : hd.op.arity ≤ 3 := by cases hd.op <;> decide
        simp only [fits, minInt, maxInt]
        omega
      · cases h

end Sys2Proof.Machine
end

