-- ==== Sys2Proof/Laws/Decode.lean ====
section
/-! SUPPORT. What the decoder accepts, said once over decimal digits. -/

namespace Sys2Proof

open Sys2Proof.Machine (bind_eq_ok)

/-- A slot is accepted exactly when its digit is a mode's, and the slot exists or the mode is Direct. -/
theorem decodeSlot_eq_ok {op : Opcode} {k d : Nat} {m : Mode} :
    decodeSlot op k d = .ok m ↔ d = m.digit ∧ (op.arity < k → m = .direct) := by
  unfold decodeSlot
  rcases d with _ | _ | _ | d <;> cases m <;> simp [Mode.ofDigit, Mode.digit] <;>
    (try split) <;> simp

theorem Opcode.ofCode_eq_some {n : Nat} {op : Opcode} : Opcode.ofCode n = some op ↔ n = op.code := by
  constructor
  · intro h
    unfold Opcode.ofCode at h
    split at h <;> simp_all <;> subst h <;> rfl
  · rintro rfl
    cases op <;> rfl

theorem Opcode.code_injective {op op' : Opcode} (h : op.code = op'.code) : op = op' := by
  have := Opcode.ofCode_eq_some.mpr h
  rw [Opcode.ofCode_eq_some.mpr rfl] at this
  exact Option.some.inj this

/-- The words the decoder accepts and what it reads from them (R53 to R56). -/
theorem decodeHeader_eq_ok {w : Word} {h : Header} : decodeHeader w = .ok h ↔
    0 ≤ w.toInt ∧ w.toInt < 100000 ∧ w.toNat % 100 = h.op.code ∧
    decimalDigit 2 w.toNat = h.m1.digit ∧ decimalDigit 3 w.toNat = h.m2.digit ∧
    decimalDigit 4 w.toNat = h.m3.digit ∧ (h.op.arity < 1 → h.m1 = .direct) ∧
    (h.op.arity < 2 → h.m2 = .direct) ∧ (h.op.arity < 3 → h.m3 = .direct) ∧
    h.destinationMode ≠ some .immediate := by
  unfold decodeHeader
  by_cases hr : w.toInt < 0 ∨ 100000 ≤ w.toInt
  · simp only [hr, if_true, reduceCtorEq, false_iff]
    rintro ⟨h1, h2, -⟩
    omega
  · simp only [hr, if_false]
    obtain ⟨hop, h1, h2, h3⟩ := h
    cases ho : Opcode.ofCode (w.toNat % 100) with
    | none =>
      simp only [reduceCtorEq, false_iff]
      rintro ⟨-, -, h, -⟩
      rw [Opcode.ofCode_eq_some.mpr h] at ho
      cases ho
    | some op =>
      rw [Opcode.ofCode_eq_some] at ho
      simp only [bind_eq_ok, decodeSlot_eq_ok]
      constructor
      · rintro ⟨m1, ⟨a1, b1⟩, m2, ⟨a2, b2⟩, m3, ⟨a3, b3⟩, h⟩
        split at h
        · cases h
        · cases h
          exact ⟨by omega, by omega, ho, a1, a2, a3, b1, b2, b3, by assumption⟩
      · rintro ⟨_, _, hc, a1, a2, a3, b1, b2, b3, hd⟩
        obtain rfl : op = hop := Opcode.code_injective (ho.symm.trans hc)
        exact ⟨h1, ⟨a1, b1⟩, h2, ⟨a2, b2⟩, h3, ⟨a3, b3⟩, by rw [if_neg hd]⟩

/-- The decoder accepts no Immediate destination, so what it builds is well formed (R40, R56). -/
theorem Header.instr_wellFormed {h : Header} (hd : h.destinationMode ≠ some .immediate)
    (p1 p2 p3 : Word) : (h.instr p1 p2 p3).wellFormed = true := by
  obtain ⟨op, m1, m2, m3⟩ := h
  have key : ∀ (m : Mode) (p : Word), m ≠ .immediate → (m.operand p).isDestination = true := by
    intro m p hm
    cases m <;> simp_all [Mode.operand, Operand.isDestination]
  cases op <;> simp_all [Header.instr, Instr.wellFormed, Header.destinationMode]

end Sys2Proof
end

