-- ==== Sys2Proof/Laws/Exec.lean ====
section
/-! SUPPORT. What each shared body of the instructions can do: its next state when it completes, and
what it can raise. -/

namespace Sys2Proof.Machine

/-- An instruction's body ends in a next state always: its own, or the fault entry. -/
theorem settle_cases (s : State) (x : Except Raised State) :
    (∃ t, x = .ok t ∧ settle s x = .next t) ∨
      (∃ e, x = .error e ∧ settle s x = .next (s.faultEntry e)) := by
  cases x with
  | ok t => exact .inl ⟨t, rfl, rfl⟩
  | error e => exact .inr ⟨e, rfl, rfl⟩

theorem withDestination_cases (dst : Operand) (body : Location → Result) :
    (∃ l, dst.location? = some l ∧ dst.isDestination = true ∧ withDestination dst body = body l) ∨
      (dst.isDestination = false ∧ withDestination dst body = .refused .immediateDestination) := by
  cases dst with
  | direct p => exact .inl ⟨_, rfl, rfl, rfl⟩
  | immediate p => exact .inr ⟨rfl, rfl⟩
  | relative p => exact .inl ⟨_, rfl, rfl, rfl⟩

theorem storeResult_eq_ok {alu : Word → Word → Except Raised Word} {a b : Operand} {l : Location}
    {s t : State} : storeResult alu a b l s = .ok t ↔
      ∃ x y r d, readOperand s a = .ok x ∧ readOperand s b = .ok y ∧ alu x y = .ok r ∧
        writeTarget s l = .ok d ∧ t = (s.setCell d r).advance 4 := by
  simp only [storeResult, bind_eq_ok, Except.ok.injEq]
  constructor
  · rintro ⟨x, hx, y, hy, r, hr, d, hd, rfl⟩
    exact ⟨x, y, r, d, hx, hy, hr, hd, rfl⟩
  · rintro ⟨x, y, r, d, hx, hy, hr, hd, rfl⟩
    exact ⟨x, hx, y, hy, r, hr, d, hd, rfl⟩

theorem storeResult_eq_error {alu : Word → Word → Except Raised Word} {a b : Operand} {l : Location}
    {s : State} {e : Raised} (halu : ∀ x y e, alu x y = .error e → e = .arithmeticOverflow)
    (h : storeResult alu a b l s = .error e) : AddressFault s e := by
  rcases bind_eq_error.mp h with h | ⟨x, _, h⟩
  · exact readOperand_eq_error h
  rcases bind_eq_error.mp h with h | ⟨y, _, h⟩
  · exact readOperand_eq_error h
  rcases bind_eq_error.mp h with h | ⟨r, _, h⟩
  · exact .inl (halu _ _ _ h)
  rcases bind_eq_error.mp h with h | ⟨d, _, h⟩
  · exact writeTarget_eq_error h
  · cases h

theorem storeInput_eq_ok {v : Word} {rest : List Word} {l : Location} {s t : State} :
    storeInput v rest l s = .ok t ↔
      ∃ d, writeTarget s l = .ok d ∧ t = ((s.setInq rest).setCell d v).advance 2 := by
  simp only [storeInput, bind_eq_ok, Except.ok.injEq, @eq_comm _ t]

theorem storeInput_eq_error {v : Word} {rest : List Word} {l : Location} {s : State} {e : Raised}
    (h : storeInput v rest l s = .error e) : AddressFault s e := by
  rcases bind_eq_error.mp h with h | ⟨d, _, h⟩
  · exact writeTarget_eq_error h
  · cases h

theorem appendOperand_eq_ok {a : Operand} {s t : State} : appendOperand a s = .ok t ↔
    ∃ x, readOperand s a = .ok x ∧ t = (s.appendOutput x).advance 2 := by
  simp only [appendOperand, bind_eq_ok, Except.ok.injEq, @eq_comm _ t]

theorem appendOperand_eq_error {a : Operand} {s : State} {e : Raised}
    (h : appendOperand a s = .error e) : AddressFault s e := by
  rcases bind_eq_error.mp h with h | ⟨x, _, h⟩
  · exact readOperand_eq_error h
  · cases h

theorem jumpWhen_eq_ok {cond : Word → Bool} {a b : Operand} {s t : State} :
    jumpWhen cond a b s = .ok t ↔ ∃ x y, readOperand s a = .ok x ∧ readOperand s b = .ok y ∧
      t = if cond x then s.jump y else s.advance 3 := by
  simp only [jumpWhen, bind_eq_ok, Except.ok.injEq]
  constructor
  · rintro ⟨x, hx, y, hy, rfl⟩
    exact ⟨x, y, hx, hy, rfl⟩
  · rintro ⟨x, y, hx, hy, rfl⟩
    exact ⟨x, hx, y, hy, rfl⟩

theorem jumpWhen_eq_error {cond : Word → Bool} {a b : Operand} {s : State} {e : Raised}
    (h : jumpWhen cond a b s = .error e) : AddressFault s e := by
  rcases bind_eq_error.mp h with h | ⟨x, _, h⟩
  · exact readOperand_eq_error h
  rcases bind_eq_error.mp h with h | ⟨y, _, h⟩
  · exact readOperand_eq_error h
  · cases h

theorem adjustBase_eq_ok {a : Operand} {s t : State} : adjustBase a s = .ok t ↔
    ∃ x r, readOperand s a = .ok x ∧ aluAdd s.rb x = .ok r ∧ t = (s.setRb r).advance 2 := by
  simp only [adjustBase, bind_eq_ok, Except.ok.injEq]
  constructor
  · rintro ⟨x, hx, r, hr, rfl⟩
    exact ⟨x, r, hx, hr, rfl⟩
  · rintro ⟨x, r, hx, hr, rfl⟩
    exact ⟨x, hx, r, hr, rfl⟩

theorem adjustBase_eq_error {a : Operand} {s : State} {e : Raised}
    (h : adjustBase a s = .error e) : AddressFault s e := by
  rcases bind_eq_error.mp h with h | ⟨x, _, h⟩
  · exact readOperand_eq_error h
  rcases bind_eq_error.mp h with h | ⟨r, _, h⟩
  · exact .inl (aluAdd_eq_error h)
  · cases h

/-- Everything an instruction can do: it is refused only if ill formed; otherwise it faults with the
state kept, completes, halts or suspends. -/
inductive ExecEffect (s : State) : Result → Prop where
  | refused : ExecEffect s (.refused .immediateDestination)
  | faulted {e : Raised} (h : AddressFault s e) : ExecEffect s (.next (s.faultEntry e))
  | stored {d : Nat} {r : Word} (h : d < s.cfg.cap) :
      ExecEffect s (.next ((s.setCell d r).advance 4))
  | suspended (h : s.inq = []) : ExecEffect s (.next s.suspend)
  | popped {d : Nat} {v : Word} {rest : List Word} (hq : s.inq = v :: rest) (h : d < s.cfg.cap) :
      ExecEffect s (.next (((s.setInq rest).setCell d v).advance 2))
  | appended {x : Word} : ExecEffect s (.next ((s.appendOutput x).advance 2))
  | jumped {x : Word} : ExecEffect s (.next (s.jump x))
  | fellThrough : ExecEffect s (.next (s.advance 3))
  | rebased {r : Word} : ExecEffect s (.next ((s.setRb r).advance 2))
  | halted : ExecEffect s (.next (s.setHalted.advance 1))

theorem storeResult_effect {alu : Word → Word → Except Raised Word}
    (halu : ∀ x y e, alu x y = .error e → e = .arithmeticOverflow) (a b dst : Operand) (s : State) :
    ExecEffect s (withDestination dst (fun l => settle s (storeResult alu a b l s))) := by
  rcases withDestination_cases dst (fun l => settle s (storeResult alu a b l s)) with
    ⟨l, -, -, h⟩ | ⟨-, h⟩
  · rw [h]
    rcases settle_cases s (storeResult alu a b l s) with ⟨t, ht, hs⟩ | ⟨e, he, hs⟩
    · obtain ⟨x, y, r, d, -, -, -, hd, rfl⟩ := storeResult_eq_ok.mp ht
      rw [hs]
      exact .stored (writeTarget_lt hd)
    · rw [hs]
      exact .faulted (storeResult_eq_error halu he)
  · rw [h]
    exact .refused

theorem input_effect (dst : Operand) (s : State) : ExecEffect s (execInput dst s) := by
  unfold execInput
  rcases withDestination_cases dst _ with ⟨l, -, -, h⟩ | ⟨-, h⟩
  · rw [h]
    cases hq : s.inq with
    | nil => exact .suspended hq
    | cons v rest =>
      dsimp only
      rcases settle_cases s (storeInput v rest l s) with ⟨t, ht, hs⟩ | ⟨e, he, hs⟩
      · obtain ⟨d, hd, rfl⟩ := storeInput_eq_ok.mp ht
        rw [hs]
        exact .popped hq (writeTarget_lt hd)
      · rw [hs]
        exact .faulted (storeInput_eq_error he)
  · rw [h]
    exact .refused

theorem jump_effect (cond : Word → Bool) (a b : Operand) (s : State) :
    ExecEffect s (settle s (jumpWhen cond a b s)) := by
  rcases settle_cases s (jumpWhen cond a b s) with ⟨t, ht, hs⟩ | ⟨e, he, hs⟩
  · obtain ⟨x, y, -, -, rfl⟩ := jumpWhen_eq_ok.mp ht
    rw [hs]
    split
    · exact .jumped
    · exact .fellThrough
  · rw [hs]
    exact .faulted (jumpWhen_eq_error he)

/-- The inversion lemma of `exec`: every later fact about what instructions may change starts here. -/
theorem exec_effect (i : Instr) (s : State) : ExecEffect s (exec i s) := by
  cases i with
  | add a b dst => exact storeResult_effect (fun _ _ _ => aluAdd_eq_error) a b dst s
  | mul a b dst => exact storeResult_effect (fun _ _ _ => aluMul_eq_error) a b dst s
  | input dst => exact input_effect dst s
  | output a =>
    rcases settle_cases s (appendOperand a s) with ⟨t, ht, hs⟩ | ⟨e, he, hs⟩
    · obtain ⟨x, -, rfl⟩ := appendOperand_eq_ok.mp ht
      simpa [exec, execOutput, hs] using .appended
    · simpa [exec, execOutput, hs] using .faulted (appendOperand_eq_error he)
  | jumpIfTrue a b => exact jump_effect conditionTrue a b s
  | jumpIfFalse a b => exact jump_effect conditionFalse a b s
  | lessThan a b dst => exact storeResult_effect (fun _ _ _ h => by cases h) a b dst s
  | equals a b dst => exact storeResult_effect (fun _ _ _ h => by cases h) a b dst s
  | adjustRelativeBase a =>
    rcases settle_cases s (adjustBase a s) with ⟨t, ht, hs⟩ | ⟨e, he, hs⟩
    · obtain ⟨x, r, -, -, rfl⟩ := adjustBase_eq_ok.mp ht
      simpa [exec, execAdjustRelativeBase, hs] using .rebased
    · simpa [exec, execAdjustRelativeBase, hs] using .faulted (adjustBase_eq_error he)
  | halt => exact .halted

end Sys2Proof.Machine
end

