-- ==== Sys2Proof/Laws/Instances.lean ====
section
/-! SUPPORT. What the pipeline's operations do to a fleet. -/

namespace Sys2Proof.Machine

theorem isLive_eq_false {s : State} : s.isLive = false ↔ s.status = .halted ∨ s.status = .faulted := by
  unfold State.isLive
  cases s.status <;> simp

theorem pipelineDone_iff {f : Fleet} :
    pipelineDone f = true ↔ ∀ s ∈ f, s.status = .halted ∨ s.status = .faulted := by
  simp [pipelineDone, isLive_eq_false]

theorem PipelineTurn.length_eq {f g : Fleet} {k : Nat} {v w : Word} (h : PipelineTurn f k v g w) :
    k < f.length ∧ g.length = f.length := by
  obtain ⟨s, t, hs, -, -, rfl⟩ := h
  exact ⟨(List.getElem?_eq_some_iff.mp hs).1, List.length_set⟩

theorem PipelineLoop.length_eq {f g : Fleet} {k : Nat} {v w : Word} (h : PipelineLoop k f v g w) :
    g.length = f.length := by
  induction h with
  | done => rfl
  | turn _ ht _ ih => exact ih.trans ht.length_eq.2

theorem foldl_input (q : List Word) (s : State) :
    q.foldl State.input s = { s with inq := s.inq ++ q } := by
  induction q generalizing s with
  | nil => simp
  | cons v q ih => simp [ih, State.input, State.setInq]

@[simp] theorem feedUpFront_length (f : Fleet) (qs : List (List Word)) :
    (feedUpFront f qs).length = f.length := by
  induction f generalizing qs with
  | nil => rfl
  | cons s f ih =>
    cases qs with
    | nil => rfl
    | cons q qs => simp [feedUpFront, ih]

end Sys2Proof.Machine
end

