-- ==== Sys2Proof/Laws/PerInstr.lean ====
section
/-! SUPPORT. Facts about every instruction, one lemma per constructor. -/

namespace Sys2Proof.Laws.LengthByArity

/-- An encoded instruction is `1 + arity` cells long, from 1 to 4 (spec/30_encoding.md R51, R61). -/
def Statement (i : Instr) : Prop := (encode i).length = i.length ∧ 1 ≤ i.length ∧ i.length ≤ 4

theorem add (a b dst : Operand) : Statement (.add a b dst) := by
  simp [Statement, encode, Instr.length, Instr.opcode, Instr.operands, Opcode.arity]

theorem mul (a b dst : Operand) : Statement (.mul a b dst) := by
  simp [Statement, encode, Instr.length, Instr.opcode, Instr.operands, Opcode.arity]

theorem input (dst : Operand) : Statement (.input dst) := by
  simp [Statement, encode, Instr.length, Instr.opcode, Instr.operands, Opcode.arity]

theorem output (a : Operand) : Statement (.output a) := by
  simp [Statement, encode, Instr.length, Instr.opcode, Instr.operands, Opcode.arity]

theorem jumpIfTrue (a b : Operand) : Statement (.jumpIfTrue a b) := by
  simp [Statement, encode, Instr.length, Instr.opcode, Instr.operands, Opcode.arity]

theorem jumpIfFalse (a b : Operand) : Statement (.jumpIfFalse a b) := by
  simp [Statement, encode, Instr.length, Instr.opcode, Instr.operands, Opcode.arity]

theorem lessThan (a b dst : Operand) : Statement (.lessThan a b dst) := by
  simp [Statement, encode, Instr.length, Instr.opcode, Instr.operands, Opcode.arity]

theorem equals (a b dst : Operand) : Statement (.equals a b dst) := by
  simp [Statement, encode, Instr.length, Instr.opcode, Instr.operands, Opcode.arity]

theorem adjustRelativeBase (a : Operand) : Statement (.adjustRelativeBase a) := by
  simp [Statement, encode, Instr.length, Instr.opcode, Instr.operands, Opcode.arity]

theorem halt : Statement .halt := by
  simp [Statement, encode, Instr.length, Instr.opcode, Instr.operands, Opcode.arity]

end Sys2Proof.Laws.LengthByArity
end

