-- ==== Sys2Proof/Tests/Slice0.lean ====
section
/-! SUPPORT. The model's own tests: well-formedness, decoding of words written out from the spec's
encoding, one or two steps' worth of fields per instruction, and a witness for the hypotheses of every
obligation that has some. Expected values are those of spec/95_test_vectors.md (the vector is named) or
hand calculation from the rule named. -/

namespace Sys2Proof.Tests

open Sys2Proof.Machine Sys2Proof.Claims

/-! ### Helpers -/

/-- The reset state with a program, on the default capacity. -/
def boot (p : List Word) : State := State.loaded Config.standard p

/-- The capacity of the priority vectors of spec/95_test_vectors.md section 2.8. -/
def cap16 : Config := { cap := 16, cap_pos := by decide, cap_le := by decide }

/-- The reset state with a program, on 16 cells. -/
def boot16 (p : List Word) : State := State.loaded cap16 p

/-- The next state of a result, if it is one. -/
def nextOf : Result → Option State
  | .next t => some t
  | .fault _ => none
  | .refused _ => none

/-- A fact about the next state. -/
def after (r : Result) (f : State → Bool) : Bool := (nextOf r).any f

/-! ### Well-formedness: one ill-formed term for each check (R40) -/

theorem test_wf_add : (Instr.add (.direct 1) (.direct 2) (.immediate 3)).wellFormed = false := by decide
theorem test_wf_mul : (Instr.mul (.direct 1) (.direct 2) (.immediate 3)).wellFormed = false := by decide
theorem test_wf_input : (Instr.input (.immediate 3)).wellFormed = false := by decide
theorem test_wf_lessThan :
    (Instr.lessThan (.direct 1) (.direct 2) (.immediate 3)).wellFormed = false := by decide
theorem test_wf_equals :
    (Instr.equals (.direct 1) (.direct 2) (.immediate 3)).wellFormed = false := by decide
/-- 90_conflicts.md C1. -/
theorem test_wf_adjust : (Instr.adjustRelativeBase (.immediate 3)).wellFormed = true := by decide

/-! ### Decoding: words from 95_test_vectors.md section 2.1 -/

theorem test_decode_add : decode [1101, 2, 3, 5] =
    .ok (.add (.immediate 2) (.immediate 3) (.direct 5), []) := by decide
theorem test_decode_mul : decode [21202, -7, 3, 1] =
    .ok (.mul (.relative (-7)) (.immediate 3) (.relative 1), []) := by decide
theorem test_decode_input : decode [3, 5] = .ok (.input (.direct 5), []) := by decide
theorem test_decode_output : decode [204, -1, 8] = .ok (.output (.relative (-1)), [8]) := by decide
theorem test_decode_jumpIfTrue : decode [2105, 5, 7] =
    .ok (.jumpIfTrue (.immediate 5) (.relative 7), []) := by decide
theorem test_decode_jumpIfFalse : decode [1006, 101, 0] =
    .ok (.jumpIfFalse (.direct 101) (.immediate 0), []) := by decide
theorem test_decode_lessThan : decode [20107, 1, 2, 3] =
    .ok (.lessThan (.immediate 1) (.direct 2) (.relative 3), []) := by decide
theorem test_decode_equals : decode [1008, 100, 16, 101] =
    .ok (.equals (.direct 100) (.immediate 16) (.direct 101), []) := by decide
theorem test_decode_adjust : decode [209, 0] = .ok (.adjustRelativeBase (.relative 0), []) := by decide
theorem test_decode_halt : decode [99, 1] = .ok (.halt, [1]) := by decide
theorem test_decode_refusals :
    decodeHeader 0 = .error .unknownOpcode ∧ decodeHeader 98 = .error .unknownOpcode ∧
    decodeHeader 301 = .error (.illegalModeDigit 1) ∧ decodeHeader 90001 = .error (.illegalModeDigit 3) ∧
    decodeHeader 11101 = .error .immediateDestination ∧
    decodeHeader 103 = .error .immediateDestination ∧
    decodeHeader 1104 = .error (.unusedSlotDigit 2) ∧ decodeHeader 199 = .error (.unusedSlotDigit 1) ∧
    decodeHeader 100099 = .error .wordOutOfRange ∧ decodeHeader (-99) = .error .wordOutOfRange ∧
    decode [1, 2] = .error (.missingParameter 2) ∧ decode [] = .error .noInstructionWord := by
  decide
theorem test_decodeTableWord : decodeTableWord 8 4 = some (.output (.direct 0)) ∧
    decodeTableWord 128 (2 ^ 64 * 7 + 104) = some (.output (.immediate 7)) ∧
    decodeTableWord 64 98 = none := by decide

/-! ### Steps -/

/-- V-ADD10: the same cell twice a source and the destination. -/
theorem test_add : after (step (boot [1, 5, 5, 5, 99, 21])) (fun t =>
    t.cell 5 = 42 ∧ t.ip = 4) = true := by decide
/-- V-ADD7: MAX_INT + 1. -/
theorem test_add_overflow : after (step (boot [1101, 9223372036854775807, 1, 5, 99])) (fun t =>
    t.status = .faulted ∧ t.cause = .arithmeticOverflow ∧ t.info = 0 ∧ t.ip = 0) = true := by decide
/-- V-MUL3. -/
theorem test_mul : after (step (boot [1102, 3, -4, 5, 99])) (fun t =>
    t.cell 5 = -12 ∧ t.ip = 4) = true := by decide
/-- V-MUL11: 2^32 times 2^31. -/
theorem test_mul_overflow : after (step (boot [1102, 4294967296, 2147483648, 5, 99])) (fun t =>
    t.cause = .arithmeticOverflow ∧ t.cell 5 = 0) = true := by decide
/-- V-IN5: first in, first out. -/
theorem test_input : after (step (((boot [3, 7]).input 10).input 20)) (fun t =>
    t.cell 7 = 10 ∧ t.inq = [20] ∧ t.ip = 2) = true := by decide
/-- V-IN8: the destination is checked before the pop. -/
theorem test_input_fault : after (step ((boot [3, -1]).input 5)) (fun t =>
    t.cause = .addressOutOfBound ∧ t.info = -1 ∧ t.inq = [5]) = true := by decide
/-- V-OUT2. -/
theorem test_output : after (step (boot [4, 3, 99, -7])) (fun t =>
    t.outlog = [-7] ∧ t.ip = 2) = true := by decide
/-- V-OUT5: EA = 0 + (-1). -/
theorem test_output_fault : after (step (boot [204, -1])) (fun t =>
    t.cause = .addressOutOfBound ∧ t.info = -1 ∧ t.outlog = []) = true := by decide
/-- V-JMP3 and V-JMP1: a negative condition is true, zero is not. -/
theorem test_jumpIfTrue : after (step (boot [1105, -1, 4])) (fun t => t.ip = 4) = true ∧
    after (step (boot [1105, 0, 7])) (fun t => t.ip = 3) = true := by decide
/-- V-JMP11: an unreadable target faults although the jump is not taken (D10). -/
theorem test_jumpIfFalse : after (step (boot [6, 0, 70000, 99])) (fun t =>
    t.cause = .addressOutOfBound ∧ t.info = 70000 ∧ t.ip = 0) = true := by decide
/-- V-CMP-T, the row MIN_INT, MAX_INT: signed. -/
theorem test_lessThan : after (step (boot [1107, -9223372036854775808, 9223372036854775807, 5, 99, 9]))
    (fun t => t.cell 5 = 1) = true := by decide
/-- V-CMP-T, the row 4294967296, 0: all 64 bits take part. -/
theorem test_equals : after (step (boot [1108, 4294967296, 0, 5, 99, 9]))
    (fun t => t.cell 5 = 0 ∧ t.mem.length = 4) = true := by decide
/-- V-ARB3: the operand is read with the old `rb`. -/
theorem test_adjust : after (step { boot [209, 0, 99, 0, 0, 12] with rb := 5 }) (fun t =>
    t.rb = 17 ∧ t.ip = 2) = true := by decide
/-- V-HLT1. -/
theorem test_halt : after (step (boot [99])) (fun t => t.status = .halted ∧ t.ip = 1) = true := by
  decide

/-! ### Priority (R137), vectors of section 2.8 on 16 cells -/

/-- V-PRI2 and V-PRI3, from the jump on: the illegal word before its missing parameters; a missing
parameter before an unreadable operand. -/
theorem test_priority_decode :
    after (step { boot16 (List.replicate 14 0 ++ [11101]) with ip := 14 }) (fun t =>
      t.cause = .invalidInstruction ∧ t.info = 11101) = true ∧
    after (step { boot16 (List.replicate 14 0 ++ [1, 20]) with ip := 14 }) (fun t =>
      t.cause = .addressOutOfBound ∧ t.info = 16) = true := by decide
/-- V-PRI4 and V-PRI6: source a first; result overflow before the destination. -/
theorem test_priority_execute :
    after (step (boot16 [1, 20, 21, 22, 99])) (fun t => t.info = 20) = true ∧
    after (step (boot16 [1101, 9223372036854775807, 1, 22, 99])) (fun t =>
      t.cause = .arithmeticOverflow) = true := by decide

/-! ### Witnesses: the hypotheses of each obligation can be met -/

theorem witness_DecodeOfEncodeGivesBack :
    (Instr.mul (.relative (-7)) (.immediate 3) (.relative 1)).wellFormed = true := by decide

theorem witness_DecodedCellsAreTheEncoding :
    decode [203, 7, 99] = .ok (.input (.relative 7), [99]) := by decide

theorem witness_LegalWordsAreExactlyNinetyNine :
    22201 ∈ Opcode.add.legalWords ∧
    (boot [98]).status = .running ∧ 0 < (boot [98]).cfg.cap ∧
    (boot [98]).ip.toInt = ((0 : Nat) : Int) ∧
    ¬ ∃ n ∈ legalWords, (boot [98]).cell 0 = BitVec.ofNat 64 n := by decide

/-- Each kind of illegal word of R132, at its boundary values. -/
theorem witness_illegal_words :
    IllegalWord (-1) ∧ IllegalWord 100000 ∧ IllegalWord 0 ∧ IllegalWord 10 ∧ IllegalWord 98 ∧
    IllegalWord 301 ∧ IllegalWord 3001 ∧ IllegalWord 90001 ∧ IllegalWord 199 ∧ IllegalWord 1104 ∧
    IllegalWord 10005 ∧ IllegalWord 11101 ∧ IllegalWord 103 ∧
    ¬ IllegalWord 1 ∧ ¬ IllegalWord 22208 ∧ ¬ IllegalWord 99 := by
  refine ⟨?_, ?_, ?_, ?_, ?_, ?_, ?_, ?_, ?_, ?_, ?_, ?_, ?_, ?_, ?_, ?_⟩ <;> decide

theorem witness_InvalidInstructionForExactlyTheListedWords :
    (boot [301]).status = .running ∧ 0 < (boot [301]).cfg.cap ∧
    (boot [301]).ip.toInt = ((0 : Nat) : Int) ∧ IllegalWord ((boot [301]).cell 0) ∧
    after (step (boot [301])) (fun t => t.status = .faulted ∧ t.cause = .invalidInstruction) = true := by
  decide

theorem witness_StepRunsTheDecodedInstruction :
    (boot [104, 5, 99]).status = .running ∧
    decode (boot [104, 5, 99]).window = .ok (.output (.immediate 5), [99, 0]) := by decide

/-- One below memory and one above it. -/
theorem witness_FetchOutsideMemoryFaults :
    { boot [] with ip := -1 }.status = .running ∧ { boot [] with ip := -1 }.ip.toInt < 0 ∧
    { boot [] with ip := 65536 }.status = .running ∧
    ({ boot [] with ip := 65536 }.cfg.cap : Int) ≤ { boot [] with ip := 65536 }.ip.toInt := by decide

/-- The first and the last parameter missing. -/
theorem witness_ParameterPastTheEndFaults :
    { boot16 (List.replicate 13 0 ++ [1, 0, 1]) with ip := 15 }.status = .running ∧
    memRead { boot16 (List.replicate 13 0 ++ [1, 0, 1]) with ip := 15 } 15 = .ok 1 ∧
    memRead { boot16 (List.replicate 13 0 ++ [1, 0, 1]) with ip := 13 } 13 = .ok 1 ∧
    decodeHeader 1 = .ok { op := .add, m1 := .direct, m2 := .direct, m3 := .direct } ∧
    Opcode.add.arity = 3 ∧ (15 : Int) + (1 : Nat) = (cap16.cap : Int) ∧
    (13 : Int) + (3 : Nat) = (cap16.cap : Int) := by decide

theorem witness_StoppedEngineIdles :
    { boot [99] with status := .halted }.status ≠ .running ∧
    { boot [99] with status := .waitingForInput }.status ≠ .running ∧
    { boot [99] with status := .faulted }.status ≠ .running := by decide

theorem witness_StepEndsInOneOfFourWays : (boot [99]).status = .running := by decide

theorem witness_CommitIsExact :
    0 ≤ { boot [] with ip := 65535 }.ip.toInt ∧
    { boot [] with ip := 65535 }.ip.toInt < ({ boot [] with ip := 65535 }.cfg.cap : Int) ∧ 4 ≤ 4 := by
  decide

theorem witness_EveryAccessIsChecked :
    ((-1 : Int) < 0) ∧ ((boot []).cfg.cap : Int) ≤ 65536 ∧ (65535 : Int) = ((65535 : Nat) : Int) ∧
    65535 < (boot []).cfg.cap ∧ (boot [7]).mem.wf = true := by decide

theorem witness_ReadAfterWrite :
    (boot [7]).mem.wf = true ∧ memWrite (boot [7]) 0 5 = .ok ((boot [7]).setCell 0 5) ∧
    (1 : Int) ≠ 0 := by decide

theorem witness_MemoriesThatReadAlikeAreEqual :
    (boot [7, 0, 8]).mem.wf = true ∧ Memory.wf [(0, 7), (2, 8)] = true ∧
    ∀ a, (boot [7, 0, 8]).mem.get a = Memory.get [(0, 7), (2, 8)] a :=
  ⟨by decide, by decide, fun _ => rfl⟩

theorem witness_EffectiveAddressByMode :
    fits ({ boot [] with rb := 1 }.rb.toInt + (-1 : Word).toInt) ∧
    ¬ fits ({ boot [] with rb := 9223372036854775807 }.rb.toInt + (1 : Word).toInt) := by decide

/-- Both ends of memory and both neighbours, in modes Direct and Relative, and the overflow. -/
theorem witness_SourceValueByMode :
    (65535 : Word).toInt = ((65535 : Nat) : Int) ∧ 65535 < (boot []).cfg.cap ∧ (-1 : Word).toInt < 0 ∧
    ((boot []).cfg.cap : Int) ≤ (65536 : Word).toInt ∧
    { boot [] with rb := 1 }.rb.toInt + (-1 : Word).toInt = ((0 : Nat) : Int) ∧
    fits ((boot []).rb.toInt + (-1 : Word).toInt) ∧ (boot []).rb.toInt + (-1 : Word).toInt < 0 ∧
    ({ boot [] with rb := 1 }.cfg.cap : Int) ≤ { boot [] with rb := 1 }.rb.toInt + (65535 : Word).toInt ∧
    ¬ fits ({ boot [] with rb := 9223372036854775807 }.rb.toInt + (1 : Word).toInt) := by decide

theorem witness_DestinationAddressByMode :
    (0 : Word).toInt = ((0 : Nat) : Int) ∧ 0 < (boot []).cfg.cap ∧ (-1 : Word).toInt < 0 ∧
    ((boot []).cfg.cap : Int) ≤ (65536 : Word).toInt ∧
    { boot [] with rb := -3 }.rb.toInt + (5 : Word).toInt = ((2 : Nat) : Int) ∧
    fits ({ boot [] with rb := -3 }.rb.toInt + (2 : Word).toInt) ∧
    { boot [] with rb := -3 }.rb.toInt + (2 : Word).toInt < 0 ∧
    ¬ fits ({ boot [] with rb := -9223372036854775808 }.rb.toInt + (-1 : Word).toInt) := by decide

/-- Operands that resolve, and operands that do not, shared by the instructions' witnesses. -/
theorem witness_operands :
    (Operand.relative 3).location? = some (.relative 3) ∧
    readOperand (boot [7]) (.direct 0) = .ok 7 ∧ readOperand (boot [7]) (.immediate (-2)) = .ok (-2) ∧
    writeTarget (boot [7]) (.relative 3) = .ok 3 ∧ (boot [7]).mem.wf = true ∧
    readOperand (boot [7]) (.direct 65536) = .error (.addressOutOfBound 65536) ∧
    (Operand.direct (-1)).location? = some (.direct (-1)) ∧
    writeTarget (boot [7]) (.direct (-1)) = .error (.addressOutOfBound (-1)) ∧
    readOperand (boot [7]) (.immediate 9223372036854775807) = .ok 9223372036854775807 := by decide

theorem witness_AddStoresTheExactSum :
    fits ((7 : Word).toInt + (-2 : Word).toInt) ∧
    ¬ fits ((9223372036854775807 : Word).toInt + (7 : Word).toInt) := by decide

theorem witness_MulStoresTheExactProduct :
    fits ((7 : Word).toInt * (-2 : Word).toInt) ∧
    ¬ fits ((9223372036854775807 : Word).toInt * (7 : Word).toInt) := by decide

theorem witness_LessThanStoresZeroOrOne :
    fits (if (7 : Word).toInt < (-2 : Word).toInt then 1 else 0) ∧
    fits (if (-2 : Word).toInt < (7 : Word).toInt then 1 else 0) := by decide

theorem witness_EqualsStoresZeroOrOne :
    fits (if (7 : Word).toInt = (-2 : Word).toInt then 1 else 0) ∧
    fits (if (7 : Word).toInt = (7 : Word).toInt then 1 else 0) := by decide

theorem witness_InputPopsOrSuspends :
    (Operand.direct (-1)).location? = some (.direct (-1)) ∧ (boot [3, -1]).inq = [] ∧
    ((boot [3, 5]).input 42).inq = 42 :: [] ∧
    (Operand.direct 5).location? = some (.direct 5) ∧
    writeTarget ((boot [3, 5]).input 42) (.direct 5) = .ok 5 ∧
    writeTarget ((boot [3, -1]).input 42) (.direct (-1)) = .error (.addressOutOfBound (-1)) := by decide

theorem witness_OutputAppendsItsOperand :
    readOperand (boot [7]) (.relative 0) = .ok 7 ∧
    readOperand (boot [7]) (.relative (-1)) = .error (.addressOutOfBound (-1)) := by decide

theorem witness_JumpIfTrueJumpsOnNonzero :
    (-1 : Word).toInt ≠ 0 ∧ ¬ (0 : Word).toInt ≠ 0 ∧
    readOperand (boot [7]) (.immediate (-1)) = .ok (-1) ∧
    readOperand (boot [7]) (.immediate 0) = .ok 0 ∧ readOperand (boot [7]) (.direct 0) = .ok 7 ∧
    readOperand (boot [7]) (.direct (-1)) = .error (.addressOutOfBound (-1)) := by decide

theorem witness_JumpIfFalseJumpsOnZero :
    (0 : Word).toInt = 0 ∧ ¬ (1 : Word).toInt = 0 ∧
    readOperand (boot [7]) (.immediate 1) = .ok 1 ∧
    readOperand (boot [7]) (.immediate 0) = .ok 0 ∧ readOperand (boot [7]) (.relative 0) = .ok 7 ∧
    readOperand (boot [7]) (.relative (-1)) = .error (.addressOutOfBound (-1)) := by decide

theorem witness_AdjustRelativeBaseAdds :
    readOperand (boot [7]) (.direct 0) = .ok 7 ∧ fits ((boot [7]).rb.toInt + (7 : Word).toInt) ∧
    readOperand { boot [7] with rb := 9223372036854775807 } (.direct 0) = .ok 7 ∧
    ¬ fits ({ boot [7] with rb := 9223372036854775807 }.rb.toInt + (7 : Word).toInt) ∧
    readOperand (boot [7]) (.direct 70000) = .error (.addressOutOfBound 70000) := by decide

theorem witness_HaltStopsTheEngine :
    decodeHeader 99 = .ok { op := .halt, m1 := .direct, m2 := .direct, m3 := .direct } := by decide

theorem witness_OnlyIllFormedTermsAreRefused :
    (Instr.input (.direct 5)).wellFormed = true ∧ (Instr.input (.immediate 5)).wellFormed = false ∧
    fetchInstr (boot [3, 5]) = .ok (.input (.direct 5)) := by decide

/-- Each of the four with a good and with a bad destination. -/
theorem witness_FrameOfTheStoringInstructions :
    (∀ i ∈ [Instr.add (.direct 0) (.immediate 2) (.direct 3), .mul (.direct 0) (.immediate 2) (.direct 3),
        .lessThan (.direct 0) (.immediate 2) (.direct 3), .equals (.direct 0) (.immediate 2) (.direct 3)],
      (nextOf (exec i (boot [7]))).isSome = true) ∧
    (∀ i ∈ [Instr.add (.direct 0) (.immediate 2) (.direct (-1)),
        .mul (.direct 0) (.immediate 2) (.direct (-1)),
        .lessThan (.direct 0) (.immediate 2) (.direct (-1)),
        .equals (.direct 0) (.immediate 2) (.direct (-1))],
      (nextOf (exec i (boot [7]))).isSome = true) ∧
    (Operand.direct 3).location? = some (.direct 3) ∧ writeTarget (boot [7]) (.direct 3) = .ok 3 ∧
    writeTarget (boot [7]) (.direct (-1)) = .error (.addressOutOfBound (-1)) := by decide

theorem witness_FrameOfInput :
    (nextOf (exec (.input (.direct 5)) ((boot []).input 42))).isSome = true ∧
    (nextOf (exec (.input (.direct (-1))) ((boot []).input 42))).isSome = true ∧
    (nextOf (exec (.input (.direct 5)) (boot []))).isSome = true ∧ (boot []).inq = [] ∧
    writeTarget ((boot []).input 42) (.direct 5) = .ok 5 ∧
    writeTarget ((boot []).input 42) (.direct (-1)) = .error (.addressOutOfBound (-1)) := by decide

theorem witness_FrameOfTheOtherInstructions :
    (∀ i ∈ [Instr.output (.direct 0), .jumpIfTrue (.direct 0) (.immediate 2),
        .jumpIfFalse (.direct 0) (.immediate 2), .adjustRelativeBase (.direct 0), .halt],
      (nextOf (exec i (boot [7]))).isSome = true) := by decide

theorem witness_OnlyAdjustRelativeBaseChangesRb :
    after (step (boot [109, 1])) (fun t => t.rb ≠ (boot [109, 1]).rb) = true := by decide

theorem witness_ChangedCellIsTheDestination :
    after (step (boot [1101, 2, 3, 5])) (fun t => t.cell 5 ≠ (boot [1101, 2, 3, 5]).cell 5) = true := by
  decide

theorem witness_OnlyInputPopsAndOnlyOutputAppends :
    after (step ((boot [3, 5]).input 1)) (fun t => t.inq = []) = true ∧
    after (step (boot [104, 6])) (fun t => t.outlog = [6]) = true := by decide

theorem witness_StatusChangesOnlyAsListed :
    after (step (boot [99])) (fun t => t.status ≠ (boot [99]).status) = true ∧
    after (step (boot [3, 5])) (fun t => t.status ≠ (boot [3, 5]).status) = true ∧
    after (step (boot [0])) (fun t => t.status ≠ (boot [0]).status) = true := by decide

theorem witness_LogHasNoInfluence : (nextOf (step (boot [104, 6]))).isSome = true := by decide

theorem witness_LaterInputHasNoInfluence :
    after (step ((boot [3, 5]).input 1)) (fun t => t.status ≠ .waitingForInput) = true := by decide

theorem witness_FaultsArePreciseAndLatched :
    (boot [4, 70000]).status = .running ∧
    after (step (boot [4, 70000])) (fun t => t.status = .faulted) = true ∧
    { boot [] with ip := -1 }.status = .running ∧ { boot [] with ip := -1 }.ip.toInt < 0 ∧
    after (step { boot [] with ip := -1 }) (fun t => t.status = .faulted) = true := by decide

theorem witness_SuspensionIsRecoverable :
    (boot [3, 5]).status = .running ∧ fetchInstr (boot [3, 5]) = .ok (.input (.direct 5)) ∧
    (boot [3, 5]).inq = [] ∧
    after (step (boot [3, 5])) (fun t => t.status = .waitingForInput) = true := by decide

theorem witness_FaultedIsLeftOnlyByReset :
    ((boot [0]).faultEntry (.invalidInstruction 0)).status = .faulted ∧
    Transact ((boot [0]).faultEntry (.invalidInstruction 0)) (.reset [99]) .unit (boot [99]) :=
  ⟨by decide, .reset (by decide)⟩

theorem witness_HaltedIsLeftOnlyByReset :
    (boot [99]).setHalted.status = .halted ∧
    Transact (boot [99]).setHalted (.input 7) .unit ((boot [99]).setHalted.input 7) :=
  ⟨by decide, .input⟩

theorem witness_StepKeepsTheInvariant :
    (boot [1101, 2, 3, 5]).Inv ∧ (nextOf (step (boot [1101, 2, 3, 5]))).isSome = true ∧
    ((boot [0]).faultEntry (.invalidInstruction 0)).Inv := by decide

theorem witness_TransactionsKeepTheInvariant :
    newInstance cap16 [3, 5] = some (boot16 [3, 5]) ∧ (boot16 [3, 5]).Inv ∧
    Transact (boot16 [3, 5]) (.input 7) .unit ((boot16 [3, 5]).input 7) :=
  ⟨by decide, by decide, .input⟩

/-- A program that fills memory, with a cell read inside it and one beyond a shorter program. -/
theorem witness_ResetStateIsExactlyTheTable :
    (List.replicate 16 (5 : Word)).length ≤ cap16.cap ∧ 15 < (List.replicate 16 (5 : Word)).length ∧
    ([5] : List Word).length ≤ 1 ∧ 1 < cap16.cap ∧ (boot16 [9]).cfg = cap16 := by decide

theorem witness_LongProgramsAreRefused :
    cap16.cap < (List.replicate 17 (0 : Word)).length ∧
    (boot16 []).cfg.cap < (List.replicate 17 (0 : Word)).length := by decide

theorem witness_OutputReturnsTheWholeLog :
    Transact (boot []) (.input 7) .unit ((boot []).input 7) ∧ ∀ p, Transaction.input 7 ≠ .reset p :=
  ⟨.input, fun _ => by simp⟩

theorem witness_RunByStatus :
    (boot [99]).status = .running ∧ (boot [3, 5]).suspend.status = .waitingForInput ∧
    (boot [3, 5]).suspend.inq = [] ∧
    fetchInstr (boot [3, 5]).suspend = .ok (.input (.direct 5)) ∧
    (boot [99]).setHalted.status = .halted ∧
    ((boot [0]).faultEntry (.invalidInstruction 0)).status = .faulted := by decide

/-- A run of one step, to Halted. -/
theorem run_halt : Run (boot [99]) ((boot [99]).setHalted.advance 1) :=
  .step (by decide) (t := (boot [99]).setHalted.advance 1) rfl (.stopped (by decide))

/-- A run of no completed step, to WaitingForInput. -/
theorem run_suspend : Run (boot [3, 5]) (boot [3, 5]).suspend :=
  .step (by decide) (t := (boot [3, 5]).suspend) rfl (.stopped (by decide))

theorem witness_RunReportsWhyItStopped : Run (boot [99]) ((boot [99]).setHalted.advance 1) := run_halt

theorem witness_TransactionsAreDeterministic :
    Transact (boot [99]) .run (.completion .done) ((boot [99]).setHalted.advance 1) ∧
    Transact (boot [99]) (.reset [3, 5]) .unit (boot [3, 5]) :=
  ⟨.run run_halt (by decide), .reset (by decide)⟩

theorem witness_SelfJumpNeverReturns :
    (boot [1105, 1, 0]).status = .running ∧
    fetchInstr (boot [1105, 1, 0]) = .ok (.jumpIfTrue (.immediate 1) (.immediate 0)) ∧
    readOperand (boot [1105, 1, 0]) (.immediate 1) = .ok 1 ∧ (1 : Word).toInt ≠ 0 ∧
    readOperand (boot [1105, 1, 0]) (.immediate 0) = .ok (boot [1105, 1, 0]).ip := by decide

theorem witness_StarvedInputIsRetried :
    (boot [3, 5]).status = .running ∧ (boot [3, 5]).inq = [] ∧
    fetchInstr (boot [3, 5]) = .ok (.input (.direct 5)) ∧ Run (boot [3, 5]) (boot [3, 5]).suspend :=
  ⟨by decide, by decide, by decide, run_suspend⟩

theorem witness_ObservedRunningIsFresh :
    Observable ((boot [3, 5]).input 7) ∧ ((boot [3, 5]).input 7).status = .running :=
  ⟨.transact (.new (cfg := Config.standard) (program := [3, 5]) (by decide)) .input, by decide⟩

theorem witness_InstancesAreIndependent :
    FleetTransact [boot [99], boot [3, 5]] 0 (.input 7) .unit [(boot [99]).input 7, boot [3, 5]] ∧
    FleetTransact [(boot [99]).input 7, boot [3, 5]] 1 (.input 8) .unit
      [(boot [99]).input 7, (boot [3, 5]).input 8] ∧ 1 ≠ 0 :=
  ⟨⟨_, _, rfl, .input, rfl⟩, ⟨_, _, rfl, .input, rfl⟩, by decide⟩

/-- A turn of an instance whose log already holds 4 and whose program halts at once: the last output
is 4. -/
theorem witness_PipelineTurnDrivesOneInstance :
    PipelineTurn [{ boot [99] with outlog := [4] }] 0 9
      [({ boot [99] with outlog := [4] }.input 9).setHalted.advance 1] 4 :=
  ⟨_, _, rfl, .step (by decide) rfl (.stopped (by decide)), by decide, rfl⟩

/-- Two instances, the first of which halts only in its second turn. -/
def pair : Fleet := [boot [104, 7, 3, 9, 3, 9, 99], boot [104, 8, 99]]

/-- After one pass the first instance waits for input, so the pipeline goes on. -/
theorem witness_pipeline_pass : ∃ g, PipelinePass pair 0 g 8 ∧ ∃ s ∈ g, s.isLive = true := by
  refine ⟨_, .turn ⟨_, _, rfl, .step rfl rfl (.step rfl rfl (.step rfl rfl (.stopped ?_))), rfl, rfl⟩
    (.turn ⟨_, _, rfl, .step rfl rfl (.step rfl rfl (.stopped ?_)), rfl, rfl⟩ (.finished ?_)), ?_⟩ <;>
  decide

/-- As in P6 the pipeline ends within a pass, after the first instance's second turn, with all halted. -/
theorem witness_pipeline_loop : ∃ g, Pipeline pair [] 0 g 7 ∧ ∀ s ∈ g, s.status = .halted := by
  refine ⟨_, .turn rfl
    ⟨_, _, rfl, .step rfl rfl (.step rfl rfl (.step rfl rfl (.stopped ?_))), rfl, rfl⟩
    (.turn rfl ⟨_, _, rfl, .step rfl rfl (.step rfl rfl (.stopped ?_)), rfl, rfl⟩
    (.turn rfl ⟨_, _, rfl, .step rfl rfl (.step rfl rfl (.stopped ?_)), rfl, rfl⟩ (.done ?_))), ?_⟩ <;>
  decide

/-- Initial inputs are queued in their order, at the instance of their position (R122). -/
theorem test_feedUpFront : (feedUpFront [boot [3, 9], boot [99]] [[5, 6]]).map State.inq = [[5, 6], []] := by
  decide

/-- A jump to itself reaches only its own state, which is running and has not faulted. -/
theorem witness_SafeRunsFetchLegalInstructions :
    SafeFrom (boot [1105, 1, 0]) ∧ Reaches (boot [1105, 1, 0]) (boot [1105, 1, 0]) ∧
    (boot [1105, 1, 0]).status = .running := by
  refine ⟨?_, .refl, by decide⟩
  have hs : step (boot [1105, 1, 0]) = .next (boot [1105, 1, 0]) := rfl
  have only : ∀ s t, Reaches s t → s = boot [1105, 1, 0] → t = boot [1105, 1, 0] := by
    intro s t h
    induction h with
    | refl => exact id
    | step h _ ih =>
      rintro rfl
      rw [hs] at h
      cases h
      exact ih rfl
  intro t h
  rw [only _ t h rfl]
  decide

/-- The greatest address inside memory. -/
theorem witness_StatusAndPeekOnlyRead :
    65535 < (boot [1]).cfg.cap ∧ (boot [1]).peek.cell? 65535 = some ((boot [1]).cell 65535) ∧
    (boot [1]).peek.cell? 65536 = none := by decide

theorem witness_PlacedWordIsRunNext :
    (boot []).mem.wf = true ∧ 4 ≤ (boot []).cfg.cap ∧
    decodeTableWord 64 1 = some (.add (.direct 0) (.direct 0) (.direct 0)) := by decide

end Sys2Proof.Tests
end

section
/-! PROOFS. The family of 10_state.md: what a step can do with the state it starts in, and from that
the frames, the sole writers of each register, the invariant, the noninterference of the log and of
input queued behind the front, and what reset and the transactions leave. -/

namespace Sys2Proof.Machine

open Sys2Proof.Claims

/-! ### Canonical memories -/

/-- A canonical memory whose first listed cell is `k` reads unlike every one that lists only later
cells: at `k` the one is nonzero and the other 0. -/
theorem Memory.not_alike_of_head_before {lo k : Nat} {x : Word} {m n : Memory}
    (hm : Memory.wfFrom lo ((k, x) :: m) = true) (hn : Memory.wfFrom (k + 1) n = true) :
    ¬ ∀ a, Memory.get ((k, x) :: m) a = Memory.get n a := by
  intro h
  obtain ⟨-, hx, -⟩ := Memory.wfFrom_cons.mp hm
  have hk := h k
  rw [Memory.get_cons, if_pos rfl, Memory.get_below hn (Nat.lt_succ_self k)] at hk
  exact hx hk

/-- Canonical memories with the same first cell that read alike have tails that read alike. -/
theorem Memory.tails_alike {k : Nat} {x y : Word} {m n : Memory}
    (hm : Memory.wfFrom (k + 1) m = true) (hn : Memory.wfFrom (k + 1) n = true)
    (h : ∀ a, Memory.get ((k, x) :: m) a = Memory.get ((k, y) :: n) a) (a : Nat) :
    Memory.get m a = Memory.get n a := by
  by_cases hk : k = a
  · subst hk
    rw [Memory.get_below hm (Nat.lt_succ_self k), Memory.get_below hn (Nat.lt_succ_self k)]
  · simpa [Memory.get_cons, hk] using h a

theorem Memory.eq_of_alike {lo : Nat} {m n : Memory} (hm : Memory.wfFrom lo m = true)
    (hn : Memory.wfFrom lo n = true) (h : ∀ a, m.get a = n.get a) : m = n := by
  induction m generalizing lo n with
  | nil =>
    cases n with
    | nil => rfl
    | cons c n => exact absurd (fun a => (h a).symm) (Memory.not_alike_of_head_before hn rfl)
  | cons c m ih =>
    obtain ⟨k, x⟩ := c
    cases n with
    | nil => exact absurd h (Memory.not_alike_of_head_before hm rfl)
    | cons d n =>
      obtain ⟨j, y⟩ := d
      obtain ⟨hk, hx, hm'⟩ := Memory.wfFrom_cons.mp hm
      obtain ⟨hj, hy, hn'⟩ := Memory.wfFrom_cons.mp hn
      rcases Nat.lt_trichotomy k j with hkj | rfl | hkj
      · exact absurd h
          (Memory.not_alike_of_head_before hm (Memory.wfFrom_cons.mpr ⟨hkj, hy, hn'⟩))
      · have hxy : x = y := by simpa [Memory.get_cons] using h k
        rw [hxy, ih hm' hn' (Memory.tails_alike hm' hn' h)]
      · exact absurd (fun a => (h a).symm)
          (Memory.not_alike_of_head_before hn (Memory.wfFrom_cons.mpr ⟨hkj, hx, hm'⟩))

/-- Settles O14: two canonical lists that read alike have the same first cell, then the same tail. -/
theorem memoriesThatReadAlikeAreEqual : Obligations.MemoriesThatReadAlikeAreEqual :=
  fun _ _ hm hn h => Memory.eq_of_alike hm hn h

/-! ### How a body ends, and the frames -/

theorem settle_eq_next {s t : State} {x : Except Raised State} :
    settle s x = .next t ↔ x = .ok t ∨ ∃ e, x = .error e ∧ t = s.faultEntry e := by
  cases x <;> simp [settle, eq_comm]

theorem withDestination_eq_next {dst : Operand} {body : Location → Result} {t : State} :
    withDestination dst body = .next t ↔ ∃ l, dst.location? = some l ∧ body l = .next t := by
  cases dst <;> simp [withDestination, Operand.location?]

theorem withDestination_of_location {dst : Operand} {l : Location} {body : Location → Result}
    (h : dst.location? = some l) : withDestination dst body = body l := by
  simp [withDestination, h]

theorem latchKeptOrFaulted_faultEntry (s : State) (e : Raised) :
    LatchKeptOrFaulted s (s.faultEntry e) := .inr ⟨e, rfl⟩

/-- A store to the cell a destination gives changes no other cell. -/
theorem setCell_frame {s : State} {l : Location} {d : Nat} (r : Word)
    (hd : writeTarget s l = .ok d) (d' : Nat) (hd' : writeTarget s l = .ok d') (k : Nat)
    (hk : k ≠ d') : (s.setCell d r).cell k = s.cell k := by
  obtain rfl : d = d' := Except.ok.inj (hd.symm.trans hd')
  exact Memory.get_set_ne hk

theorem storeResult_frame {alu : Word → Word → Except Raised Word} {a b : Operand} {l : Location}
    {s t : State} (h : settle s (storeResult alu a b l s) = .next t) :
    t.cfg = s.cfg ∧ t.rb = s.rb ∧ t.inq = s.inq ∧ t.outlog = s.outlog ∧ LatchKeptOrFaulted s t ∧
    (∀ d, writeTarget s l = .ok d → ∀ k, k ≠ d → t.cell k = s.cell k) ∧
    (∀ e, writeTarget s l = .error e → ∀ k, t.cell k = s.cell k) := by
  rcases settle_eq_next.mp h with h | ⟨e, -, rfl⟩
  · obtain ⟨x, y, r, d, -, -, -, hd, rfl⟩ := storeResult_eq_ok.mp h
    refine ⟨rfl, rfl, rfl, rfl, .inl ⟨rfl, rfl, rfl⟩, setCell_frame _ hd, fun e he => ?_⟩
    cases hd.symm.trans he
  · exact ⟨rfl, rfl, rfl, rfl, latchKeptOrFaulted_faultEntry s _, fun _ _ _ _ => rfl,
      fun _ _ _ => rfl⟩

/-- Settles O29: the four instructions are the store of a result at their one destination. -/
theorem frameOfTheStoringInstructions : Obligations.FrameOfTheStoringInstructions := by
  intro i a b dst l s t hi hl h
  rcases hi with rfl | rfl | rfl | rfl <;>
    exact storeResult_frame ((withDestination_of_location hl).symm.trans h)

/-- Input, taken apart: it suspends on an empty queue, and otherwise pops and stores at its
destination or faults. -/
theorem exec_input_cases {dst : Operand} {l : Location} {s t : State}
    (hl : dst.location? = some l) (h : exec (.input dst) s = .next t) :
    (s.inq = [] ∧ t = s.suspend) ∨
    (∃ v rest d, s.inq = v :: rest ∧ writeTarget s l = .ok d ∧
      t = ((s.setInq rest).setCell d v).advance 2) ∨
    (∃ v rest e, s.inq = v :: rest ∧ AddressFault s e ∧ t = s.faultEntry e) := by
  replace h := (withDestination_of_location hl).symm.trans h
  cases hq : s.inq with
  | nil =>
    rw [hq] at h
    cases h
    exact .inl ⟨rfl, rfl⟩
  | cons v rest =>
    rw [hq] at h
    rcases settle_eq_next.mp h with h | ⟨e, he, rfl⟩
    · obtain ⟨d, hd, rfl⟩ := storeInput_eq_ok.mp h
      exact .inr (.inl ⟨v, rest, d, rfl, hd, rfl⟩)
    · exact .inr (.inr ⟨v, rest, e, rfl, storeInput_eq_error he, rfl⟩)

/-- Settles O30, by the three ways Input ends. -/
theorem frameOfInput : Obligations.FrameOfInput := by
  intro dst l s t hl h
  rcases exec_input_cases hl h with ⟨-, rfl⟩ | ⟨v, rest, d, hq, hd, rfl⟩ | ⟨v, rest, e, -, -, rfl⟩
  · exact ⟨rfl, rfl, rfl, .inr rfl, .inl rfl, fun _ _ _ _ => rfl, fun _ _ => rfl⟩
  · refine ⟨rfl, rfl, rfl, .inl (.inl ⟨rfl, rfl, rfl⟩), .inr ⟨v, d, hq, hd⟩,
      setCell_frame _ hd, ?_⟩
    rintro (hempty | ⟨e, he⟩)
    · cases hq.symm.trans hempty
    · cases hd.symm.trans he
  · exact ⟨rfl, rfl, rfl, .inl (latchKeptOrFaulted_faultEntry s _), .inl rfl,
      fun _ _ _ _ => rfl, fun _ _ => rfl⟩

theorem output_frame {a : Operand} {s t : State} (h : exec (.output a) s = .next t) :
    t.cfg = s.cfg ∧ t.rb = s.rb ∧ t.inq = s.inq ∧ LatchKeptOrFaulted s t ∧
      ∀ k, t.cell k = s.cell k := by
  rcases settle_eq_next.mp h with h | ⟨e, -, rfl⟩
  · obtain ⟨x, -, rfl⟩ := appendOperand_eq_ok.mp h
    exact ⟨rfl, rfl, rfl, .inl ⟨rfl, rfl, rfl⟩, fun _ => rfl⟩
  · exact ⟨rfl, rfl, rfl, latchKeptOrFaulted_faultEntry s _, fun _ => rfl⟩

theorem jump_frame {cond : Word → Bool} {a b : Operand} {s t : State}
    (h : settle s (jumpWhen cond a b s) = .next t) :
    t.cfg = s.cfg ∧ t.rb = s.rb ∧ t.inq = s.inq ∧ t.outlog = s.outlog ∧ LatchKeptOrFaulted s t ∧
      ∀ k, t.cell k = s.cell k := by
  rcases settle_eq_next.mp h with h | ⟨e, -, rfl⟩
  · obtain ⟨x, y, -, -, rfl⟩ := jumpWhen_eq_ok.mp h
    split <;> exact ⟨rfl, rfl, rfl, rfl, .inl ⟨rfl, rfl, rfl⟩, fun _ => rfl⟩
  · exact ⟨rfl, rfl, rfl, rfl, latchKeptOrFaulted_faultEntry s _, fun _ => rfl⟩

theorem adjustRelativeBase_frame {a : Operand} {s t : State}
    (h : exec (.adjustRelativeBase a) s = .next t) :
    t.cfg = s.cfg ∧ t.inq = s.inq ∧ t.outlog = s.outlog ∧ LatchKeptOrFaulted s t ∧
      ∀ k, t.cell k = s.cell k := by
  rcases settle_eq_next.mp h with h | ⟨e, -, rfl⟩
  · obtain ⟨x, r, -, -, rfl⟩ := adjustBase_eq_ok.mp h
    exact ⟨rfl, rfl, rfl, .inl ⟨rfl, rfl, rfl⟩, fun _ => rfl⟩
  · exact ⟨rfl, rfl, rfl, latchKeptOrFaulted_faultEntry s _, fun _ => rfl⟩

/-- Settles O31, one frame per kind of instruction. -/
theorem frameOfTheOtherInstructions : Obligations.FrameOfTheOtherInstructions := by
  intro a b s t
  refine ⟨output_frame, ?_, adjustRelativeBase_frame, ?_⟩
  · rintro (h | h)
    · exact jump_frame h
    · exact jump_frame h
  · intro h
    cases h
    exact ⟨rfl, rfl, rfl, rfl, rfl, rfl, fun _ => rfl⟩

/-! ### How an instruction and a step end -/

/-- How an instruction ends in a next state, case by case with what its operands answered:
`ExecEffect` with the instruction kept beside its effect. -/
inductive EndsIn (s : State) : Instr → State → Prop where
  | faulted {i : Instr} {e : Raised} (h : AddressFault s e) : EndsIn s i (s.faultEntry e)
  | stored {i : Instr} {dst : Operand} {l : Location} {d : Nat} {r : Word} (hlen : i.length = 4)
      (hdst : destinationOf i = some dst) (hl : dst.location? = some l)
      (hd : writeTarget s l = .ok d) : EndsIn s i ((s.setCell d r).advance 4)
  | suspended {dst : Operand} (hq : s.inq = []) : EndsIn s (.input dst) s.suspend
  | popped {dst : Operand} {l : Location} {d : Nat} {v : Word} {rest : List Word}
      (hq : s.inq = v :: rest) (hl : dst.location? = some l) (hd : writeTarget s l = .ok d) :
      EndsIn s (.input dst) (((s.setInq rest).setCell d v).advance 2)
  | appended {a : Operand} {x : Word} (hx : readOperand s a = .ok x) :
      EndsIn s (.output a) ((s.appendOutput x).advance 2)
  | jumped {i : Instr} {a b : Operand} {y : Word} (hi : i = .jumpIfTrue a b ∨ i = .jumpIfFalse a b)
      (hy : readOperand s b = .ok y) : EndsIn s i (s.jump y)
  | fellThrough {i : Instr} {a b : Operand} (hi : i = .jumpIfTrue a b ∨ i = .jumpIfFalse a b) :
      EndsIn s i (s.advance 3)
  | rebased {a : Operand} {x r : Word} (hx : readOperand s a = .ok x)
      (hr : r.toInt = s.rb.toInt + x.toInt) :
      EndsIn s (.adjustRelativeBase a) ((s.setRb r).advance 2)
  | halted : EndsIn s .halt (s.setHalted.advance 1)

theorem storeResult_endsIn {alu : Word → Word → Except Raised Word} {i : Instr} {a b dst : Operand}
    {s t : State} (halu : ∀ x y e, alu x y = .error e → e = .arithmeticOverflow)
    (hlen : i.length = 4) (hdst : destinationOf i = some dst)
    (h : withDestination dst (fun l => settle s (storeResult alu a b l s)) = .next t) :
    EndsIn s i t := by
  obtain ⟨l, hl, h⟩ := withDestination_eq_next.mp h
  rcases settle_eq_next.mp h with h | ⟨e, he, rfl⟩
  · obtain ⟨x, y, r, d, -, -, -, hd, rfl⟩ := storeResult_eq_ok.mp h
    exact .stored hlen hdst hl hd
  · exact .faulted (storeResult_eq_error halu he)

theorem input_endsIn {dst : Operand} {s t : State} (h : exec (.input dst) s = .next t) :
    EndsIn s (.input dst) t := by
  obtain ⟨l, hl, -⟩ := withDestination_eq_next.mp h
  rcases exec_input_cases hl h with ⟨hq, rfl⟩ | ⟨v, rest, d, hq, hd, rfl⟩ | ⟨v, rest, e, -, he, rfl⟩
  · exact .suspended hq
  · exact .popped hq hl hd
  · exact .faulted he

theorem jump_endsIn {cond : Word → Bool} {i : Instr} {a b : Operand} {s t : State}
    (hi : i = .jumpIfTrue a b ∨ i = .jumpIfFalse a b)
    (h : settle s (jumpWhen cond a b s) = .next t) : EndsIn s i t := by
  rcases settle_eq_next.mp h with h | ⟨e, he, rfl⟩
  · obtain ⟨x, y, -, hy, rfl⟩ := jumpWhen_eq_ok.mp h
    split
    · exact .jumped hi hy
    · exact .fellThrough hi
  · exact .faulted (jumpWhen_eq_error he)

/-- The inversion lemma of `exec`, for facts that name the instruction. -/
theorem exec_endsIn {i : Instr} {s t : State} (h : exec i s = .next t) : EndsIn s i t := by
  cases i with
  | add a b dst => exact storeResult_endsIn (fun _ _ _ => aluAdd_eq_error) rfl rfl h
  | mul a b dst => exact storeResult_endsIn (fun _ _ _ => aluMul_eq_error) rfl rfl h
  | input dst => exact input_endsIn h
  | output a =>
    rcases settle_eq_next.mp h with h | ⟨e, he, rfl⟩
    · obtain ⟨x, hx, rfl⟩ := appendOperand_eq_ok.mp h
      exact .appended hx
    · exact .faulted (appendOperand_eq_error he)
  | jumpIfTrue a b => exact jump_endsIn (.inl rfl) h
  | jumpIfFalse a b => exact jump_endsIn (.inr rfl) h
  | lessThan a b dst => exact storeResult_endsIn (fun _ _ _ h => by cases h) rfl rfl h
  | equals a b dst => exact storeResult_endsIn (fun _ _ _ h => by cases h) rfl rfl h
  | adjustRelativeBase a =>
    rcases settle_eq_next.mp h with h | ⟨e, he, rfl⟩
    · obtain ⟨x, r, hx, hr, rfl⟩ := adjustBase_eq_ok.mp h
      exact .rebased hx (narrow_eq_ok.mp hr)
    · exact .faulted (adjustBase_eq_error he)
  | halt =>
    cases h
    exact .halted

theorem step_of_stopped {s : State} (h : s.status ≠ .running) : step s = .next s := by
  cases hs : s.status with
  | running => exact absurd hs h
  | halted => simp [step, cycle, hs]
  | waitingForInput => simp [step, cycle, hs]
  | faulted => simp [step, cycle, hs]

theorem step_of_running {s : State} (h : s.status = .running) : step s = runInstr s := by
  simp [step, cycle, h]

theorem runInstr_of_fetch_error {s : State} {e : Raised} (h : fetchInstr s = .error e) :
    runInstr s = .next (s.faultEntry e) := by
  simp [runInstr, h]

theorem runInstr_of_fetch_ok {s : State} {i : Instr} (h : fetchInstr s = .ok i) :
    runInstr s = exec i s := by
  simp [runInstr, h]

/-- How a step ends: a stopped engine idles; a running one faults in the fetch or executes what it
fetched. -/
inductive StepsTo (s : State) : State → Prop where
  | idle (h : s.status ≠ .running) : StepsTo s s
  | fetchFault {e : Raised} (h : s.status = .running) (hf : fetchInstr s = .error e) :
      StepsTo s (s.faultEntry e)
  | executed {i : Instr} {t : State} (h : s.status = .running) (hf : fetchInstr s = .ok i)
      (he : exec i s = .next t) : StepsTo s t

/-- The inversion lemma of `step`. -/
theorem step_stepsTo {s t : State} (h : step s = .next t) : StepsTo s t := by
  by_cases hs : s.status = .running
  · rw [step_of_running hs] at h
    cases hf : fetchInstr s with
    | error e =>
      rw [runInstr_of_fetch_error hf] at h
      cases h
      exact .fetchFault hs hf
    | ok i => exact .executed hs hf ((runInstr_of_fetch_ok hf).symm.trans h)
  · rw [step_of_stopped hs] at h
    cases h
    exact .idle hs

/-! ### The sole writers of `rb`, the queue, the log and the status -/

/-- Settles O32: of the ways a step ends, only the completed AdjustRelativeBase writes `rb`. -/
theorem onlyAdjustRelativeBaseChangesRb : Obligations.OnlyAdjustRelativeBaseChangesRb := by
  intro s t h hrb
  cases step_stepsTo h with
  | idle => exact absurd rfl hrb
  | fetchFault => exact absurd rfl hrb
  | executed _ hf he =>
    cases exec_endsIn he with
    | rebased hx hr => exact ⟨_, _, hf, hx, hr⟩
    | faulted | stored | suspended | popped | appended | jumped | fellThrough | halted =>
      exact absurd rfl hrb

/-- Settles O34: of the ways a step ends, one pops the queue and one appends to the log. -/
theorem onlyInputPopsAndOnlyOutputAppends : Obligations.OnlyInputPopsAndOnlyOutputAppends := by
  intro s t h
  cases step_stepsTo h with
  | idle => exact ⟨.inl rfl, .inl rfl⟩
  | fetchFault => exact ⟨.inl rfl, .inl rfl⟩
  | executed _ hf he =>
    cases exec_endsIn he with
    | popped hq => exact ⟨.inr ⟨_, _, hf, hq⟩, .inl rfl⟩
    | appended hx => exact ⟨.inl rfl, .inr ⟨_, _, hf, hx, rfl⟩⟩
    | faulted | stored | suspended | jumped | fellThrough | rebased | halted =>
      exact ⟨.inl rfl, .inl rfl⟩

/-- Settles O35: of the ways a step ends, Halt, the suspension and the faults write the status. -/
theorem statusChangesOnlyAsListed : Obligations.StatusChangesOnlyAsListed := by
  intro s t h hst
  cases step_stepsTo h with
  | idle => exact absurd rfl hst
  | fetchFault hs => exact ⟨hs, .inr (.inr ⟨_, rfl⟩)⟩
  | executed hs hf he =>
    refine ⟨hs, ?_⟩
    cases exec_endsIn he with
    | faulted => exact .inr (.inr ⟨_, rfl⟩)
    | suspended hq => exact .inr (.inl ⟨rfl, hq, _, hf⟩)
    | halted => exact .inl ⟨rfl, hf⟩
    | stored | popped | appended | jumped | fellThrough | rebased => exact absurd rfl hst

/-! ### The log and later input have no influence

Both claims compare a step with the step of a state that has entries before its log and values behind
its queue. One relation serves both: nothing a step reads sees either, but for the emptiness test of
Input. -/

/-- The state with earlier entries before its log and later values behind its queue. -/
def State.padded (earlier later : List Word) (s : State) : State :=
  { s with inq := s.inq ++ later, outlog := earlier ++ s.outlog }

/-- The result with a function applied to its next state. -/
def mapNext (f : State → State) : Result → Result
  | .next t => .next (f t)
  | .fault r => .fault r
  | .refused r => .refused r

@[simp] theorem mapNext_next (f : State → State) (t : State) :
    mapNext f (.next t) = .next (f t) := rfl

theorem withDestination_mapNext (f : State → State) (dst : Operand) (body : Location → Result) :
    withDestination dst (fun l => mapNext f (body l)) = mapNext f (withDestination dst body) := by
  cases dst <;> rfl

section
variable (earlier later : List Word) (s : State)

@[simp] theorem State.padded_ip : (s.padded earlier later).ip = s.ip := rfl
@[simp] theorem State.padded_rb : (s.padded earlier later).rb = s.rb := rfl
@[simp] theorem State.padded_inq : (s.padded earlier later).inq = s.inq ++ later := rfl

@[simp] theorem memRead_padded (a : Int) : memRead (s.padded earlier later) a = memRead s a := rfl

@[simp] theorem writeTarget_padded (l : Location) :
    writeTarget (s.padded earlier later) l = writeTarget s l := by
  cases l <;> rfl

@[simp] theorem readOperand_padded (o : Operand) :
    readOperand (s.padded earlier later) o = readOperand s o := by
  cases o <;> rfl

@[simp] theorem fetchCells_padded (a : Int) (n : Nat) :
    fetchCells (s.padded earlier later) a n = fetchCells s a n := by
  induction n generalizing a with
  | zero => rfl
  | succ n ih => simp [fetchCells, ih]

@[simp] theorem fetchInstr_padded : fetchInstr (s.padded earlier later) = fetchInstr s := by
  simp [fetchInstr]

theorem settle_padded (x : Except Raised State) :
    settle (s.padded earlier later) (State.padded earlier later <$> x) =
      mapNext (State.padded earlier later) (settle s x) := by
  cases x <;> rfl

theorem storeResult_padded (alu : Word → Word → Except Raised Word) (a b : Operand) (l : Location) :
    storeResult alu a b l (s.padded earlier later) =
      State.padded earlier later <$> storeResult alu a b l s := by
  simp only [storeResult, readOperand_padded, writeTarget_padded, map_bind]
  rfl

theorem storeInput_padded (v : Word) (rest : List Word) (l : Location) :
    storeInput v (rest ++ later) l (s.padded earlier later) =
      State.padded earlier later <$> storeInput v rest l s := by
  simp only [storeInput, writeTarget_padded, map_bind]
  rfl

theorem appendOutput_padded (x : Word) :
    (s.padded earlier later).appendOutput x = (s.appendOutput x).padded earlier later := by
  simp [State.padded, State.appendOutput]

theorem appendOperand_padded (a : Operand) :
    appendOperand a (s.padded earlier later) = State.padded earlier later <$> appendOperand a s := by
  simp only [appendOperand, readOperand_padded, appendOutput_padded, map_bind]
  rfl

theorem jumpWhen_padded (cond : Word → Bool) (a b : Operand) :
    jumpWhen cond a b (s.padded earlier later) =
      State.padded earlier later <$> jumpWhen cond a b s := by
  simp only [jumpWhen, readOperand_padded, map_bind]
  congr! 4 with x y
  split <;> rfl

theorem adjustBase_padded (a : Operand) :
    adjustBase a (s.padded earlier later) = State.padded earlier later <$> adjustBase a s := by
  simp only [adjustBase, readOperand_padded, State.padded_rb, map_bind]
  rfl

theorem storing_padded (alu : Word → Word → Except Raised Word) (a b dst : Operand) :
    withDestination dst (fun l => settle (s.padded earlier later)
        (storeResult alu a b l (s.padded earlier later))) =
      mapNext (State.padded earlier later)
        (withDestination dst (fun l => settle s (storeResult alu a b l s))) := by
  simp only [storeResult_padded, settle_padded, withDestination_mapNext]

variable {earlier later s}

/-- The one place where a step looks at the length of the queue: an Input on an empty one. -/
theorem execInput_padded (dst : Operand) (h : later = [] ∨ s.inq ≠ []) :
    execInput dst (s.padded earlier later) =
      mapNext (State.padded earlier later) (execInput dst s) := by
  unfold execInput
  rw [← withDestination_mapNext]
  congr! 2 with l
  cases hq : s.inq with
  | nil =>
    obtain rfl : later = [] := h.resolve_right (fun h => h hq)
    simp only [State.padded_inq, hq, List.append_nil]
    rfl
  | cons v rest =>
    simp only [State.padded_inq, hq, List.cons_append, storeInput_padded, settle_padded]

theorem exec_padded {i : Instr} (h : later = [] ∨ s.inq ≠ [] ∨ ∀ dst, i ≠ .input dst) :
    exec i (s.padded earlier later) = mapNext (State.padded earlier later) (exec i s) := by
  cases i with
  | add a b dst => exact storing_padded ..
  | mul a b dst => exact storing_padded ..
  | input dst => exact execInput_padded dst (h.imp_right (·.resolve_right (fun h => h dst rfl)))
  | output a => simp only [exec, execOutput, appendOperand_padded, settle_padded]
  | jumpIfTrue a b => simp only [exec, execJumpIfTrue, jumpWhen_padded, settle_padded]
  | jumpIfFalse a b => simp only [exec, execJumpIfFalse, jumpWhen_padded, settle_padded]
  | lessThan a b dst => exact storing_padded ..
  | equals a b dst => exact storing_padded ..
  | adjustRelativeBase a =>
    simp only [exec, execAdjustRelativeBase, adjustBase_padded, settle_padded]
  | halt => rfl

end

theorem exec_input_of_empty {dst : Operand} {s t : State} (hq : s.inq = [])
    (h : exec (.input dst) s = .next t) : t = s.suspend := by
  obtain ⟨l, hl, -⟩ := withDestination_eq_next.mp h
  rcases exec_input_cases hl h with ⟨-, ht⟩ | ⟨_, _, _, hq', -⟩ | ⟨_, _, _, hq', -⟩
  · exact ht
  · cases hq.symm.trans hq'
  · cases hq.symm.trans hq'

/-- The relational step lemma: a step commutes with padding, unless it suspends and the padding gives
it the input it waits for. -/
theorem step_padded {earlier later : List Word} {s t : State} (h : step s = .next t)
    (hw : later = [] ∨ t.status ≠ .waitingForInput) :
    step (s.padded earlier later) = .next (t.padded earlier later) := by
  cases step_stepsTo h with
  | idle hs => exact step_of_stopped hs
  | fetchFault hs hf =>
    rw [step_of_running (s := s.padded earlier later) hs,
      runInstr_of_fetch_error ((fetchInstr_padded ..).trans hf)]
    rfl
  | @executed i _ hs hf he =>
    have key : later = [] ∨ s.inq ≠ [] ∨ ∀ dst, i ≠ .input dst := by
      refine hw.imp_right fun hw => ?_
      by_contra! hc
      obtain ⟨hq, dst, rfl⟩ := hc
      exact hw (congrArg State.status (exec_input_of_empty hq he))
    rw [step_of_running (s := s.padded earlier later) hs,
      runInstr_of_fetch_ok ((fetchInstr_padded ..).trans hf), exec_padded key, he, mapNext_next]

/-- Settles O36: the step commutes with padding the log. -/
theorem logHasNoInfluence : Obligations.LogHasNoInfluence := by
  intro s t earlier h
  simpa [State.padded] using step_padded (earlier := earlier) (later := []) h (.inl rfl)

/-- Settles O37: the step commutes with padding the queue, if it does not suspend. -/
theorem laterInputHasNoInfluence : Obligations.LaterInputHasNoInfluence := by
  intro s t later h hw
  simpa [State.padded] using step_padded (earlier := []) (later := later) h (.inr hw)

/-! ### The invariant -/

theorem State.latchOk_iff_of_not_faulted {s : State} (h : s.status ≠ .faulted) :
    s.latchOk = true ↔ s.cause = .none ∧ s.info = 0#64 := by
  unfold State.latchOk
  cases hs : s.status with
  | faulted => exact absurd hs h
  | running | halted | waitingForInput => cases s.cause <;> simp

/-- R131: the recorded address fits a word, so reading it back gives the address outside memory. -/
theorem State.faultEntry_latchOk_of_address {s : State} {a : Int} (ha : fits a)
    (h : a < 0 ∨ (s.cfg.cap : Int) ≤ a) : (s.faultEntry (.addressOutOfBound a)).latchOk = true := by
  simpa [State.latchOk, State.faultEntry, Raised.cause, Raised.info, toInt_ofInt_of_fits ha] using h

/-- R132: the recorded word is the one the decoder refused. -/
theorem State.faultEntry_latchOk_of_word {s : State} {w : Word} {d : DecodeError}
    (h : decodeHeader w = .error d) : (s.faultEntry (.invalidInstruction w)).latchOk = true := by
  simp [State.latchOk, State.faultEntry, Raised.cause, Raised.info, h]

theorem AddressFault.latchOk {s : State} {e : Raised} (h : AddressFault s e) :
    (s.faultEntry e).latchOk = true := by
  rcases h with rfl | ⟨a, ha, hb, rfl⟩
  · rfl
  · exact State.faultEntry_latchOk_of_address ha hb

theorem fetchFault_latchOk {s : State} {e : Raised} (h : fetchInstr s = .error e) :
    (s.faultEntry e).latchOk = true := by
  rcases fetchInstr_eq_error h with ⟨a, ha, hb, rfl⟩ | ⟨w, d, hw, rfl⟩
  · exact State.faultEntry_latchOk_of_address ha hb
  · exact State.faultEntry_latchOk_of_word hw

/-- A running engine's clear latch stays sound in every state that keeps it and has not faulted. -/
theorem State.latchOk_of_kept {s t : State} (h : s.latchOk = true) (hs : s.status = .running)
    (ht : t.status ≠ .faulted) (hcause : t.cause = s.cause) (hinfo : t.info = s.info) :
    t.latchOk = true := by
  rw [State.latchOk_iff_of_not_faulted (by simp [hs])] at h
  rwa [State.latchOk_iff_of_not_faulted ht, hcause, hinfo]

/-- An instruction keeps the invariant of a running engine: what it stores lies inside memory, and
what it raises is sound. -/
theorem exec_inv {i : Instr} {s t : State} (hinv : s.Inv) (hs : s.status = .running)
    (h : exec i s = .next t) : t.Inv := by
  obtain ⟨hwf, hbelow, hlatch⟩ := hinv
  have hclear (u : State) (hu : u.status ≠ .faulted) : u.cause = s.cause → u.info = s.info →
      u.latchOk = true := State.latchOk_of_kept hlatch hs hu
  have heff := exec_effect i s
  rw [h] at heff
  cases heff with
  | faulted he => exact ⟨hwf, hbelow, he.latchOk⟩
  | stored hd | popped _ hd =>
    exact ⟨Memory.set_wf hwf, Memory.set_below hbelow hd, hclear _ (by simp [hs]) rfl rfl⟩
  | suspended | appended | jumped | fellThrough | rebased | halted =>
    exact ⟨hwf, hbelow, hclear _ (by simp [hs]) rfl rfl⟩

/-- Settles O42, by the ways a step ends. -/
theorem stepKeepsTheInvariant : Obligations.StepKeepsTheInvariant := by
  intro s t hinv h
  cases step_stepsTo h with
  | idle => exact hinv
  | fetchFault hs hf =>
    obtain ⟨hwf, hbelow, -⟩ := hinv
    exact ⟨hwf, hbelow, fetchFault_latchOk hf⟩
  | executed hs _ he => exact exec_inv hinv hs he

theorem State.loaded_inv {cfg : Config} {p : List Word} (h : p.length ≤ cfg.cap) :
    (State.loaded cfg p).Inv :=
  ⟨Memory.load_wf p, Memory.load_below 0 p ((Nat.zero_add _).trans_le h), rfl⟩

/-- Settles O43: reset is the load of the empty program. -/
theorem resetHasTheInvariant : Obligations.ResetHasTheInvariant :=
  State.loaded_inv (cfg := Config.standard) (p := []) (Nat.zero_le _)

/-! ### Reset and the transactions -/

theorem newInstance_eq_some {cfg : Config} {p : List Word} {s : State} :
    newInstance cfg p = some s ↔ p.length ≤ cfg.cap ∧ s = State.loaded cfg p := by
  unfold newInstance
  split <;> simp_all [eq_comm]

theorem newInstance_eq_none {cfg : Config} {p : List Word} :
    newInstance cfg p = none ↔ cfg.cap < p.length := by
  simp [newInstance]

/-- A reset is accepted when the program fits, and answers the loaded state whatever stood before. -/
theorem transact_reset_iff {s t : State} {p : List Word} {r : Reply} (h : p.length ≤ s.cfg.cap) :
    Transact s (.reset p) r t ↔ r = .unit ∧ t = State.loaded s.cfg p := by
  constructor
  · intro ht
    cases ht with
    | reset ht => exact ⟨rfl, (newInstance_eq_some.mp ht).2⟩
    | resetRefused hn => exact absurd h (Nat.not_le.mpr (newInstance_eq_none.mp hn))
  · rintro ⟨rfl, rfl⟩
    exact .reset (newInstance_eq_some.mpr ⟨h, rfl⟩)

theorem State.loaded_cell (cfg : Config) (p : List Word) (i : Nat) :
    (State.loaded cfg p).cell i = p.getD i 0#64 := by
  simp [State.cell, State.loaded, Memory.get_load]

/-- Settles O45: `new` and an accepted reset both answer the loaded state. -/
theorem resetStateIsExactlyTheTable : Obligations.ResetStateIsExactlyTheTable := by
  intro cfg p hp
  refine ⟨State.loaded cfg p, newInstance_eq_some.mpr ⟨hp, rfl⟩,
    fun i _ => State.loaded_cell cfg p i, fun i hi _ => ?_,
    rfl, rfl, rfl, rfl, rfl, rfl, rfl, rfl, rfl, ?_⟩
  · rw [State.loaded_cell, List.getD_eq_default _ _ hi]
  · rintro u rfl r t
    exact transact_reset_iff hp

theorem runLoop_of_stopped {s t : State} (h : s.status ≠ .running) : RunLoop s t ↔ t = s := by
  constructor
  · intro hr
    cases hr with
    | stopped => rfl
    | step hs => exact absurd hs h
  · rintro rfl
    exact .stopped h

/-- Only a suspended engine is resumed, so the run of a halted or faulted one does nothing. -/
theorem run_of_not_live {s t : State} (h : s.isLive = false) : Run s t ↔ t = s := by
  have hs := isLive_eq_false.mp h
  rcases s.resume_cases with ⟨hw, -⟩ | ⟨-, hr⟩
  · simp [hw] at hs
  · rw [Run, hr]
    exact runLoop_of_stopped (by rcases hs with hs | hs <;> simp [hs])

theorem transact_run_iff {s t : State} {r : Reply} :
    Transact s .run r t ↔ ∃ c, Run s t ∧ t.completion? = some c ∧ r = .completion c := by
  constructor
  · intro h
    cases h with
    | run h hc => exact ⟨_, h, hc, rfl⟩
  · rintro ⟨c, h, hc, rfl⟩
    exact .run h hc

/-- D14: the run of a halted engine returns at once and reports Done. -/
theorem transact_run_of_halted {s t : State} {r : Reply} (h : s.status = .halted) :
    Transact s .run r t ↔ t = s ∧ r = .completion .done := by
  have hc : s.completion? = some .done := by simp [State.completion?, h]
  rw [transact_run_iff]
  constructor
  · rintro ⟨c, hr, hc', rfl⟩
    obtain rfl := (run_of_not_live (isLive_eq_false.mpr (.inl h))).mp hr
    obtain rfl := Option.some.inj (hc.symm.trans hc')
    exact ⟨rfl, rfl⟩
  · rintro ⟨rfl, rfl⟩
    exact ⟨.done, (run_of_not_live (isLive_eq_false.mpr (.inl h))).mpr rfl, hc, rfl⟩

/-- Settles O41, by the kinds of transaction. -/
theorem haltedIsLeftOnlyByReset : Obligations.HaltedIsLeftOnlyByReset := by
  intro s hs
  have same : ∃ q, s = { s with inq := s.inq ++ q } := ⟨[], by simp⟩
  refine ⟨fun r t => transact_run_of_halted hs, fun x r t h => ?_⟩
  cases h with
  | reset ht =>
    obtain ⟨-, rfl⟩ := newInstance_eq_some.mp ht
    exact .inr ⟨_, rfl, rfl⟩
  | @input v => exact .inl ⟨[v], rfl⟩
  | run hr hc =>
    obtain ⟨rfl, -⟩ := (transact_run_of_halted hs).mp (.run hr hc)
    exact .inl same
  | resetRefused | output | status | peek => exact .inl same

theorem State.not_running_of_completion {s : State} {c : Completion} (h : s.completion? = some c) :
    s.status ≠ .running := by
  intro hs
  simp [State.completion?, hs] at h

/-- As `new` made it from some program, but for queued input. -/
def State.Fresh (s : State) : Prop :=
  ∃ p t, newInstance s.cfg p = some t ∧ s = { t with inq := s.inq }

theorem State.fresh_of_new {cfg : Config} {p : List Word} {s : State}
    (h : newInstance cfg p = some s) : s.Fresh := by
  obtain ⟨-, rfl⟩ := newInstance_eq_some.mp h
  exact ⟨p, _, h, rfl⟩

theorem State.Fresh.input {s : State} (h : s.Fresh) (v : Word) : (s.input v).Fresh := by
  obtain ⟨p, t, ht, hs⟩ := h
  refine ⟨p, t, ht, ?_⟩
  rw [hs]
  rfl

/-- Settles O56, by induction on the transactions since `new`: no run returns in Running. -/
theorem observedRunningIsFresh : Obligations.ObservedRunningIsFresh := by
  intro s ho
  change s.status = .running → s.Fresh
  induction ho with
  | new h => exact fun _ => State.fresh_of_new h
  | transact _ h ih =>
    cases h with
    | reset h => exact fun _ => State.fresh_of_new h
    | input => exact fun hs => (ih hs).input _
    | run _ hc => exact fun hs => absurd hs (State.not_running_of_completion hc)
    | resetRefused | output | status | peek => exact ih

/-! ### Several instances -/

theorem FleetTransact.getElem?_ne {f g : Fleet} {k j : Nat} {x : Transaction} {r : Reply}
    (h : FleetTransact f k x r g) (hj : j ≠ k) : g[j]? = f[j]? := by
  obtain ⟨s, t, -, -, rfl⟩ := h
  exact List.getElem?_set_ne hj.symm

/-- Settles O57: each transaction reads and writes its own position of the list only. -/
theorem instancesAreIndependent : Obligations.InstancesAreIndependent := by
  refine ⟨fun f g k j x r h hj => h.getElem?_ne hj, ?_⟩
  intro f g h k j x y r q hj hx hy
  have hfj : g[j]? = f[j]? := hx.getElem?_ne hj
  obtain ⟨s, t, hs, hst, rfl⟩ := hx
  obtain ⟨u, v, hu, huv, rfl⟩ := hy
  refine ⟨f.set j v, ⟨u, v, hfj.symm.trans hu, huv, rfl⟩, s, t, ?_, hst, List.set_comm t v hj.symm⟩
  rw [List.getElem?_set_ne hj, hs]

end Sys2Proof.Machine
end

section
/-! PROOFS. The family of 20_memory.md: the cells that decode are the encoding of what they decode to,
only ill-formed terms are refused, every access is checked, operands resolve by their mode, and a
changed cell is a destination. -/

namespace Sys2Proof

open Sys2Proof.Machine

/-! ### What decodes is an encoding -/

/-- The decoder on a sequence of cells: a legal word, its parameters, and the rest (R57). -/
theorem decode_eq_ok {ws : List Word} {i : Instr} {rest : List Word} :
    decode ws = .ok (i, rest) ↔ ∃ w h ps, ws = w :: (ps ++ rest) ∧ decodeHeader w = .ok h ∧
      ps.length = h.op.arity ∧ i = h.instrOf ps := by
  cases ws with
  | nil => simp [decode]
  | cons w cells =>
    constructor
    · intro hd
      cases hw : decodeHeader w with
      | error e => simp [decode, hw] at hd
      | ok h =>
        by_cases hlen : cells.length < h.op.arity
        · simp [decode, hw, hlen] at hd
        · simp only [decode, hw, hlen, if_false, Except.ok.injEq, Prod.mk.injEq] at hd
          obtain ⟨rfl, rfl⟩ := hd
          exact ⟨w, h, cells.take h.op.arity, by rw [List.take_append_drop], hw,
            List.length_take_of_le (by omega), rfl⟩
    · rintro ⟨w', h, ps, hws, hw, hps, rfl⟩
      obtain ⟨rfl, rfl⟩ := List.cons.inj hws
      simp [decode, hw, ← hps]

@[simp] theorem Mode.operand_mode (m : Mode) (p : Word) : (m.operand p).mode = m := by
  cases m <;> rfl

@[simp] theorem Mode.operand_param (m : Mode) (p : Word) : (m.operand p).param = p := by
  cases m <;> rfl

@[simp] theorem Header.instr_opcode (h : Header) (p1 p2 p3 : Word) :
    (h.instr p1 p2 p3).opcode = h.op := by
  obtain ⟨op, m1, m2, m3⟩ := h
  cases op <;> rfl

theorem Header.instr_operands (h : Header) (p1 p2 p3 : Word) : (h.instr p1 p2 p3).operands =
    [h.m1.operand p1, h.m2.operand p2, h.m3.operand p3].take h.op.arity := by
  obtain ⟨op, m1, m2, m3⟩ := h
  cases op <;> rfl

theorem Opcode.arity_le (op : Opcode) : op.arity ≤ 3 := by cases op <;> decide

/-- The three reads of `Header.instrOf`, cut to the list's length, give the list back. -/
theorem take_getD_of_length_le {ps : List Word} (h : ps.length ≤ 3) :
    [ps.getD 0 0#64, ps.getD 1 0#64, ps.getD 2 0#64].take ps.length = ps := by
  match ps, h with
  | [], _ | [_], _ | [_, _], _ | [_, _, _], _ => rfl

theorem Header.instrOf_params {h : Header} {ps : List Word} (hps : ps.length = h.op.arity) :
    (h.instrOf ps).operands.map Operand.param = ps := by
  rw [Header.instrOf, Header.instr_operands, List.map_take, ← hps]
  simpa using take_getD_of_length_le (hps.trans_le h.op.arity_le)

/-- The modes of an instruction, as a number, are the three mode slots of its word: a slot beyond the
arity is Direct, digit 0 (R50, R55 b). -/
theorem Header.instr_modeDigits {h : Header} (h1 : h.op.arity < 1 → h.m1 = .direct)
    (h2 : h.op.arity < 2 → h.m2 = .direct) (h3 : h.op.arity < 3 → h.m3 = .direct)
    (p1 p2 p3 : Word) : modeDigits (h.instr p1 p2 p3).operands =
      h.m1.digit + 10 * h.m2.digit + 100 * h.m3.digit := by
  have h0 : Mode.direct.digit = 0 := rfl
  rw [Header.instr_operands]
  have harity := h.op.arity_le
  interval_cases h.op.arity
  · simp [modeDigits, h1, h2, h3, h0]
  · simp [modeDigits, h2, h3, h0]
  · simp [modeDigits, h3, h0]
  · simp only [List.take_succ_cons, List.take_zero, modeDigits, Mode.operand_mode]
    ring

/-- A number of five decimal digits is its two low digits and the three above them (R50). -/
theorem eq_of_decimalDigits {n : Nat} (h : n < 100000) :
    100 * (decimalDigit 2 n + 10 * decimalDigit 3 n + 100 * decimalDigit 4 n) + n % 100 = n := by
  simp only [decimalDigit]
  omega

theorem toNat_lt_of_toInt_lt {w : Word} (h0 : 0 ≤ w.toInt) (h : w.toInt < 100000) :
    w.toNat < 100000 := by
  have := BitVec.toInt_eq_toNat_cond w
  have := w.isLt
  omega

/-- A legal word is the word of every instruction it forms (R50, R59). -/
theorem word_of_decodeHeader {w : Word} {h : Header} (hw : decodeHeader w = .ok h)
    (p1 p2 p3 : Word) : (h.instr p1 p2 p3).word = w.toNat := by
  obtain ⟨hnonneg, hlt, hcode, hd1, hd2, hd3, hu1, hu2, hu3, -⟩ := decodeHeader_eq_ok.mp hw
  rw [Instr.word, Header.instr_opcode, Header.instr_modeDigits hu1 hu2 hu3, ← hcode, ← hd1, ← hd2,
    ← hd3]
  exact eq_of_decimalDigits (toNat_lt_of_toInt_lt hnonneg hlt)

theorem encode_of_decodeHeader {w : Word} {h : Header} {ps : List Word}
    (hw : decodeHeader w = .ok h) (hps : ps.length = h.op.arity) :
    encode (h.instrOf ps) = w :: ps := by
  rw [encode, Header.instrOf_params hps, Header.instrOf, word_of_decodeHeader hw,
    BitVec.ofNat_toNat, BitVec.setWidth_eq]

theorem wellFormed_of_decodeHeader {w : Word} {h : Header} (hw : decodeHeader w = .ok h)
    (ps : List Word) : (h.instrOf ps).wellFormed = true := by
  obtain ⟨-, -, -, -, -, -, -, -, -, hdst⟩ := decodeHeader_eq_ok.mp hw
  exact Header.instr_wellFormed hdst _ _ _

/-- Settles O2: the word is the sum of the digits the decoder checked, and the parameters follow it. -/
theorem decodedCellsAreTheEncoding : Obligations.DecodedCellsAreTheEncoding := by
  intro ws i rest hd
  obtain ⟨w, h, ps, rfl, hw, hps, rfl⟩ := decode_eq_ok.mp hd
  exact ⟨wellFormed_of_decodeHeader hw ps, by rw [encode_of_decodeHeader hw hps, List.cons_append]⟩

end Sys2Proof

namespace Sys2Proof.Machine

open Sys2Proof.Claims

/-! ### Reads and writes -/

theorem checkAddr_of_lt {s : State} {k : Nat} (h : k < s.cfg.cap) : checkAddr s k = .ok k :=
  checkAddr_eq_ok.mpr ⟨rfl, h⟩

theorem memRead_of_lt {s : State} {k : Nat} (h : k < s.cfg.cap) : memRead s k = .ok (s.cell k) :=
  memRead_eq_ok.mpr ⟨k, rfl, h, rfl⟩

theorem checkAddr_of_outside {s : State} {a : Int} (h : a < 0 ∨ (s.cfg.cap : Int) ≤ a) :
    checkAddr s a = .error (.addressOutOfBound a) :=
  checkAddr_eq_error.mpr ⟨h, rfl⟩

theorem memRead_of_outside {s : State} {a : Int} (h : a < 0 ∨ (s.cfg.cap : Int) ≤ a) :
    memRead s a = .error (.addressOutOfBound a) :=
  memRead_eq_error.mpr ⟨h, rfl⟩

/-- Settles O12: the read and the write fault as the check does, and a store changes one cell. -/
theorem everyAccessIsChecked : Obligations.EveryAccessIsChecked := by
  intro s a v
  refine ⟨fun h => ⟨checkAddr_of_outside h, memRead_of_outside h, memWrite_eq_error.mpr ⟨h, rfl⟩⟩, ?_⟩
  rintro k rfl hk
  exact ⟨checkAddr_of_lt hk, memRead_of_lt hk, s.setCell k v, memWrite_eq_ok.mpr ⟨k, rfl, hk, rfl⟩,
    rfl, fun hwf => Memory.get_set_self hwf, fun j hj => Memory.get_set_ne hj⟩

/-- A store to a cell leaves the read of every other address as it was, its fault included. -/
theorem memRead_setCell_ne {s : State} {k : Nat} {v : Word} {b : Int} (h : b ≠ k) :
    memRead (s.setCell k v) b = memRead s b := by
  cases hb : memRead s b with
  | ok w =>
    obtain ⟨j, rfl, hj, rfl⟩ := memRead_eq_ok.mp hb
    have hjk : j ≠ k := fun hjk => h (congrArg Nat.cast hjk)
    exact memRead_eq_ok.mpr ⟨j, rfl, hj, (Memory.get_set_ne hjk).symm⟩
  | error e =>
    obtain ⟨hout, rfl⟩ := memRead_eq_error.mp hb
    exact memRead_of_outside hout

/-- Settles O13: the write is a store to a checked cell. -/
theorem readAfterWrite : Obligations.ReadAfterWrite := by
  intro s t a b v hwf hw
  obtain ⟨k, rfl, hk, rfl⟩ := memWrite_eq_ok.mp hw
  exact ⟨memRead_eq_ok.mpr ⟨k, rfl, hk, (Memory.get_set_self hwf).symm⟩, Memory.set_wf hwf,
    memRead_setCell_ne⟩

/-! ### Operands by mode -/

/-- Every address inside memory is the value of a cell, for the capacity is at most 2^62 (R5). -/
theorem fits_of_lt_cap {s : State} {k : Nat} (h : k < s.cfg.cap) : fits (k : Int) := by
  have := s.cfg.cap_le
  simp only [fits, minInt, maxInt]
  omega

section
variable {s : State} {p : Word}

theorem effectiveAddress_relative_of_fits (h : fits (s.rb.toInt + p.toInt)) :
    effectiveAddress s (.relative p) = .ok (BitVec.ofInt 64 (s.rb.toInt + p.toInt)) :=
  narrow_eq_ok.mpr (toInt_ofInt_of_fits h)

theorem effectiveAddress_relative_of_not_fits (h : ¬ fits (s.rb.toInt + p.toInt)) :
    effectiveAddress s (.relative p) = .error .arithmeticOverflow :=
  narrow_eq_error.mpr ⟨h, rfl⟩

theorem readOperand_direct : readOperand s (.direct p) = memRead s p.toInt := rfl

theorem writeTarget_direct : writeTarget s (.direct p) = checkAddr s p.toInt := rfl

theorem readOperand_relative_of_fits (h : fits (s.rb.toInt + p.toInt)) :
    readOperand s (.relative p) = memRead s (s.rb.toInt + p.toInt) := by
  simp [readOperand, effectiveAddress_relative_of_fits h, bind, Except.bind, toInt_ofInt_of_fits h]

theorem writeTarget_relative_of_fits (h : fits (s.rb.toInt + p.toInt)) :
    writeTarget s (.relative p) = checkAddr s (s.rb.toInt + p.toInt) := by
  simp [writeTarget, effectiveAddress_relative_of_fits h, bind, Except.bind, toInt_ofInt_of_fits h]

end

/-- Settles O15, by whether the sum fits. -/
theorem effectiveAddressByMode : Obligations.EffectiveAddressByMode :=
  fun _ _ => ⟨rfl, fun h => ⟨_, effectiveAddress_relative_of_fits h, toInt_ofInt_of_fits h⟩,
    effectiveAddress_relative_of_not_fits⟩

/-- Settles O16: a source is the checked read of its effective address. -/
theorem sourceValueByMode : Obligations.SourceValueByMode := by
  intro s p
  refine ⟨rfl, fun k hp hk => ?_, fun h => ?_, fun k hp hk => ?_, fun hf h => ?_, fun hf => ?_⟩
  · rw [readOperand_direct, hp, memRead_of_lt hk]
  · rw [readOperand_direct, memRead_of_outside h]
  · rw [readOperand_relative_of_fits (hp ▸ fits_of_lt_cap hk), hp, memRead_of_lt hk]
  · rw [readOperand_relative_of_fits hf, memRead_of_outside h]
  · exact bind_eq_error.mpr (.inl (effectiveAddress_relative_of_not_fits hf))

/-- Settles O17: a destination is the check of its effective address. -/
theorem destinationAddressByMode : Obligations.DestinationAddressByMode := by
  intro s p
  refine ⟨fun k hp hk => ?_, fun h => ?_, fun k hp hk => ?_, fun hf h => ?_, fun hf => ?_⟩
  · rw [writeTarget_direct, hp, checkAddr_of_lt hk]
  · rw [writeTarget_direct, checkAddr_of_outside h]
  · rw [writeTarget_relative_of_fits (hp ▸ fits_of_lt_cap hk), hp, checkAddr_of_lt hk]
  · rw [writeTarget_relative_of_fits hf, checkAddr_of_outside h]
  · exact bind_eq_error.mpr (.inl (effectiveAddress_relative_of_not_fits hf))

/-! ### Destinations -/

theorem settle_exists_next (s : State) (x : Except Raised State) : ∃ t, settle s x = .next t := by
  rcases settle_cases s x with ⟨t, -, h⟩ | ⟨e, -, h⟩
  · exact ⟨t, h⟩
  · exact ⟨_, h⟩

theorem withDestination_exists_next {dst : Operand} {body : Location → Result}
    (hdst : dst.isDestination = true) (hbody : ∀ l, ∃ t, body l = .next t) :
    ∃ t, withDestination dst body = .next t := by
  rcases withDestination_cases dst body with ⟨l, -, -, h⟩ | ⟨hd, -⟩
  · rw [h]
    exact hbody l
  · cases hdst.symm.trans hd

theorem withDestination_refused {dst : Operand} {body : Location → Result}
    (hdst : dst.isDestination = false) :
    withDestination dst body = .refused .immediateDestination := by
  rcases withDestination_cases dst body with ⟨l, -, hd, -⟩ | ⟨-, h⟩
  · cases hdst.symm.trans hd
  · exact h

theorem exec_exists_next {i : Instr} (s : State) (h : i.wellFormed = true) :
    ∃ t, exec i s = .next t := by
  cases i with
  | add | mul | lessThan | equals =>
    exact withDestination_exists_next h fun _ => settle_exists_next s _
  | input =>
    refine withDestination_exists_next h fun l => ?_
    cases s.inq with
    | nil => exact ⟨_, rfl⟩
    | cons v rest => exact settle_exists_next s _
  | output | jumpIfTrue | jumpIfFalse | adjustRelativeBase => exact settle_exists_next s _
  | halt => exact ⟨_, rfl⟩

theorem exec_refused {i : Instr} (s : State) (h : i.wellFormed = false) :
    exec i s = .refused .immediateDestination := by
  cases i with
  | add | mul | input | lessThan | equals => exact withDestination_refused h
  | output | jumpIfTrue | jumpIfFalse | adjustRelativeBase | halt => cases h

theorem fetchInstr_wellFormed {s : State} {i : Instr} (h : fetchInstr s = .ok i) :
    i.wellFormed = true := by
  obtain ⟨w, hd, ps, -, hw, -, rfl⟩ := fetchInstr_eq_ok.mp h
  exact wellFormed_of_decodeHeader hw ps

/-- Settles O28: the destination decides the first two parts, the decoder's check of it the third. -/
theorem onlyIllFormedTermsAreRefused : Obligations.OnlyIllFormedTermsAreRefused :=
  ⟨fun _ s => exec_exists_next s, fun _ s => exec_refused s, fun _ _ => fetchInstr_wellFormed⟩

/-- The one cell that a store changes is the cell stored to. -/
theorem eq_of_setCell_cell_ne {s : State} {d k : Nat} {v : Word}
    (h : (s.setCell d v).cell k ≠ s.cell k) : d = k := by
  by_contra hdk
  exact h (Memory.get_set_ne (Ne.symm hdk))

/-- Settles O33: of the ways a step ends, two store, each at its destination. -/
theorem changedCellIsTheDestination : Obligations.ChangedCellIsTheDestination := by
  intro s t k h hk
  cases step_stepsTo h with
  | idle => exact absurd rfl hk
  | fetchFault => exact absurd rfl hk
  | executed _ hf he =>
    cases exec_endsIn he with
    | stored _ hdst hl hd =>
      obtain rfl := eq_of_setCell_cell_ne hk
      exact ⟨_, _, _, hf, hdst, hl, hd⟩
    | popped _ hl hd =>
      obtain rfl := eq_of_setCell_cell_ne hk
      exact ⟨_, _, _, hf, rfl, hl, hd⟩
    | faulted | suspended | appended | jumped | fellThrough | rebased | halted =>
      exact absurd rfl hk

end Sys2Proof.Machine
end

section
/-! PROOFS. The family of 30_encoding.md: the words the decoder accepts are those of the legal
headers, one word each, so encoding is undone by decoding and the 99 listed words are the legal ones;
an illegal word and a missing parameter fault at the fetch, and a word placed at the fetch point is
fetched. -/

namespace Sys2Proof

open Sys2Proof.Machine

/-! ### Legal headers and their words -/

/-- What R55 and R56 ask of the modes: Direct in every slot beyond the arity, and no Immediate
destination. -/
abbrev Header.Legal (h : Header) : Prop :=
  (h.op.arity < 1 → h.m1 = .direct) ∧ (h.op.arity < 2 → h.m2 = .direct) ∧
    (h.op.arity < 3 → h.m3 = .direct) ∧ h.destinationMode ≠ some .immediate

/-- The instruction word of R50 that says what the header says. -/
def Header.word (h : Header) : Nat :=
  100 * (h.m1.digit + 10 * h.m2.digit + 100 * h.m3.digit) + h.op.code

theorem Mode.digit_lt (m : Mode) : m.digit < 3 := by cases m <;> decide

theorem Opcode.code_lt (op : Opcode) : op.code < 100 := by cases op <;> decide

theorem Header.word_lt (h : Header) : h.word < 100000 := by
  have := h.m1.digit_lt
  have := h.m2.digit_lt
  have := h.m3.digit_lt
  have := h.op.code_lt
  simp only [Header.word]
  omega

/-- The decimal fields of a header's word are the header's. -/
theorem Header.word_fields (h : Header) : h.word % 100 = h.op.code ∧
    decimalDigit 2 h.word = h.m1.digit ∧ decimalDigit 3 h.word = h.m2.digit ∧
    decimalDigit 4 h.word = h.m3.digit := by
  have := h.m1.digit_lt
  have := h.m2.digit_lt
  have := h.m3.digit_lt
  have := h.op.code_lt
  simp only [Header.word, decimalDigit]
  omega

theorem Header.toNat_ofNat_word (h : Header) : (BitVec.ofNat 64 h.word).toNat = h.word := by
  have := h.word_lt
  exact (BitVec.toNat_ofNat h.word 64).trans (Nat.mod_eq_of_lt (by omega))

theorem toInt_ofNat_of_fits {n : Nat} (h : fits (n : Int)) : (BitVec.ofNat 64 n).toInt = n := by
  rw [← BitVec.ofInt_natCast, toInt_ofInt_of_fits h]

theorem Header.toInt_ofNat_word (h : Header) : (BitVec.ofNat 64 h.word).toInt = h.word := by
  have := h.word_lt
  exact toInt_ofNat_of_fits (by simp only [fits, minInt, maxInt]; omega)

/-- The decoder accepts the words of the legal headers and no others, each as its header. -/
theorem decodeHeader_eq_ok_iff {w : Word} {h : Header} :
    decodeHeader w = .ok h ↔ h.Legal ∧ w = BitVec.ofNat 64 h.word := by
  rw [decodeHeader_eq_ok]
  constructor
  · rintro ⟨hnonneg, hlt, hcode, hd1, hd2, hd3, hu1, hu2, hu3, hdst⟩
    refine ⟨⟨hu1, hu2, hu3, hdst⟩, ?_⟩
    rw [Header.word, ← hcode, ← hd1, ← hd2, ← hd3,
      eq_of_decimalDigits (toNat_lt_of_toInt_lt hnonneg hlt), BitVec.ofNat_toNat,
      BitVec.setWidth_eq]
  · rintro ⟨⟨hu1, hu2, hu3, hdst⟩, rfl⟩
    have hlt := h.word_lt
    obtain ⟨hcode, hd1, hd2, hd3⟩ := h.word_fields
    rw [h.toInt_ofNat_word, h.toNat_ofNat_word]
    exact ⟨by omega, by omega, hcode, hd1, hd2, hd3, hu1, hu2, hu3, hdst⟩

/-! ### Decoding undoes encoding -/

/-- The mode in slot `k`, counted from 0, of an instruction; Direct where it has no such operand. -/
def Instr.slotMode (i : Instr) (k : Nat) : Mode := (i.operands.map Operand.mode).getD k .direct

/-- What the instruction word of an instruction says. -/
def Instr.header (i : Instr) : Header :=
  { op := i.opcode, m1 := i.slotMode 0, m2 := i.slotMode 1, m3 := i.slotMode 2 }

@[simp] theorem Operand.mode_operand_param (o : Operand) : o.mode.operand o.param = o := by
  cases o <;> rfl

theorem Instr.operands_length (i : Instr) : i.operands.length = i.opcode.arity := by
  cases i <;> rfl

theorem Instr.header_instrOf (i : Instr) : i.header.instrOf (i.operands.map Operand.param) = i := by
  cases i <;>
    simp [Instr.header, Instr.slotMode, Header.instrOf, Header.instr, Instr.operands, Instr.opcode]

theorem Operand.mode_ne_immediate {o : Operand} (h : o.isDestination = true) :
    o.mode ≠ .immediate := by
  cases o with
  | direct | relative => exact nofun
  | immediate => cases h

theorem Instr.header_destinationMode {i : Instr} (h : i.wellFormed = true) :
    i.header.destinationMode ≠ some .immediate := by
  cases i with
  | add | mul | lessThan | equals | input =>
    exact fun hm => Operand.mode_ne_immediate h (Option.some.inj hm)
  | output | jumpIfTrue | jumpIfFalse | adjustRelativeBase | halt => exact nofun

theorem Instr.slotMode_of_arity_le {i : Instr} {k : Nat} (h : i.opcode.arity ≤ k) :
    i.slotMode k = .direct :=
  List.getD_eq_default _ _ (by rwa [List.length_map, i.operands_length])

theorem Instr.header_legal {i : Instr} (h : i.wellFormed = true) : i.header.Legal :=
  ⟨fun h1 => Instr.slotMode_of_arity_le (Nat.le_of_lt_succ h1),
    fun h2 => Instr.slotMode_of_arity_le (Nat.le_of_lt_succ h2),
    fun h3 => Instr.slotMode_of_arity_le (Nat.le_of_lt_succ h3), Instr.header_destinationMode h⟩

theorem Instr.header_word {i : Instr} (h : i.wellFormed = true) : i.header.word = i.word := by
  obtain ⟨h1, h2, h3, -⟩ := Instr.header_legal h
  conv_rhs => rw [← i.header_instrOf]
  rw [Instr.word, Header.instrOf, Header.instr_modeDigits h1 h2 h3, Header.instr_opcode,
    Header.word]

/-- Settles O1: the word of a well-formed instruction is that of its header, which is legal, and the
header with the parameters forms the instruction again. -/
theorem decodeOfEncodeGivesBack : Obligations.DecodeOfEncodeGivesBack := by
  intro i rest h
  refine decode_eq_ok.mpr ⟨_, i.header, i.operands.map Operand.param, rfl, ?_, ?_, ?_⟩
  · exact decodeHeader_eq_ok_iff.mpr ⟨Instr.header_legal h, by rw [Instr.header_word h]⟩
  · rw [List.length_map, i.operands_length, Instr.header]
  · exact i.header_instrOf.symm

/-- Settles O5: the decoder evaluated on seven closed lists of cells. -/
theorem writtenOutWordsDecode : Obligations.WrittenOutWordsDecode := by
  unfold Obligations.WrittenOutWordsDecode
  decide

/-! ### The 99 legal words -/

/-- The three modes in the order of their digits (R36). -/
def Mode.all : List Mode := [.direct, .immediate, .relative]

@[simp] theorem Mode.mem_all (m : Mode) : m ∈ Mode.all := by cases m <;> decide

/-- The headers of an opcode in the order of their words, legal or not. -/
def Opcode.headers (op : Opcode) : List Header :=
  Mode.all.flatMap fun m3 => Mode.all.flatMap fun m2 => Mode.all.map fun m1 => ⟨op, m1, m2, m3⟩

theorem Opcode.mem_headers {op : Opcode} {h : Header} : h ∈ op.headers ↔ h.op = op := by
  obtain ⟨op', m1, m2, m3⟩ := h
  simp [Opcode.headers, eq_comm]

/-- The table's row of an opcode lists the words of its legal headers, in order. -/
theorem Opcode.legalWords_eq (op : Opcode) :
    op.legalWords = (op.headers.filter (fun h => decide h.Legal)).map Header.word := by
  cases op <;> decide

theorem Opcode.mem_legalWords {op : Opcode} {n : Nat} :
    n ∈ op.legalWords ↔ ∃ h : Header, h.Legal ∧ h.op = op ∧ h.word = n := by
  simp only [Opcode.legalWords_eq, List.mem_map, List.mem_filter, Opcode.mem_headers,
    decide_eq_true_eq, and_assoc, and_left_comm]

theorem Opcode.mem_all (op : Opcode) : op ∈ Opcode.all := by cases op <;> decide

theorem mem_legalWords {n : Nat} : n ∈ legalWords ↔ ∃ h : Header, h.Legal ∧ h.word = n := by
  simp [legalWords, Opcode.mem_legalWords, Opcode.mem_all]

theorem decodeHeader_accepts_iff {w : Word} :
    (∃ h, decodeHeader w = .ok h) ↔ ∃ n ∈ legalWords, w = BitVec.ofNat 64 n := by
  simp only [decodeHeader_eq_ok_iff, mem_legalWords]
  constructor
  · rintro ⟨h, hl, rfl⟩
    exact ⟨h.word, ⟨h, hl, rfl⟩, rfl⟩
  · rintro ⟨_, ⟨h, hl, rfl⟩, rfl⟩
    exact ⟨h, hl, rfl⟩

end Sys2Proof

namespace Sys2Proof.Machine

/-! ### Faults of the fetch -/

theorem step_of_fetch_error {s : State} {e : Raised} (hs : s.status = .running)
    (h : fetchInstr s = .error e) : step s = .next (s.faultEntry e) := by
  rw [step_of_running hs, runInstr_of_fetch_error h]

theorem fetchInstr_of_illegal {s : State} {w : Word} {d : DecodeError}
    (hw : memRead s s.ip.toInt = .ok w) (hd : decodeHeader w = .error d) :
    fetchInstr s = .error (.invalidInstruction w) :=
  bind_eq_error.mpr (.inr ⟨w, hw, by simp [hd]⟩)

theorem fetchInstr_of_missing {s : State} {w : Word} {h : Header} {e : Raised}
    (hw : memRead s s.ip.toInt = .ok w) (hh : decodeHeader w = .ok h)
    (hps : fetchCells s (s.ip.toInt + 1) h.op.arity = .error e) : fetchInstr s = .error e :=
  bind_eq_error.mpr (.inr ⟨w, hw, by simp only [hh]; exact bind_eq_error.mpr (.inl hps)⟩)

/-- Settles O3: the table's rows list the words of the legal headers, which are what the decoder
accepts; the counts are those of the closed list. -/
theorem legalWordsAreExactlyNinetyNine : Obligations.LegalWordsAreExactlyNinetyNine := by
  refine ⟨fun w => decodeHeader_accepts_iff, fun op n hn => ?_, by decide, by decide, by decide,
    fun s k hs hk hip hill => ?_⟩
  · obtain ⟨h, hl, hop, rfl⟩ := Opcode.mem_legalWords.mp hn
    exact ⟨h, decodeHeader_eq_ok_iff.mpr ⟨hl, rfl⟩, hop⟩
  · have hw : memRead s s.ip.toInt = .ok (s.cell k) := by rw [hip, memRead_of_lt hk]
    cases hd : decodeHeader (s.cell k) with
    | ok h => exact absurd (decodeHeader_accepts_iff.mp ⟨h, hd⟩) hill
    | error d => exact step_of_fetch_error hs (fetchInstr_of_illegal hw hd)

/-- A fetch of cells that runs into the end of memory raises the first address outside it. -/
theorem fetchCells_past_end {s : State} {a n j : Nat} (hj : j < n) (ha : a + j = s.cfg.cap) :
    fetchCells s a n = .error (.addressOutOfBound s.cfg.cap) := by
  induction n generalizing a j with
  | zero => omega
  | succ n ih =>
    cases j with
    | zero =>
      obtain rfl : a = s.cfg.cap := ha
      exact bind_eq_error.mpr (.inl (memRead_of_outside (.inr le_rfl)))
    | succ j =>
      have hrest := ih (a := a + 1) (j := j) (by omega) (by omega)
      exact bind_eq_error.mpr (.inr ⟨_, memRead_of_lt (by omega), bind_eq_error.mpr (.inl hrest)⟩)

/-- Settles O8: the parameters before the k-th lie inside memory, so their fetch runs into its
end. -/
theorem parameterPastTheEndFaults : Obligations.ParameterPastTheEndFaults := by
  intro s w h k hs hw hh hk hka hcap
  obtain ⟨a, ha, -, -⟩ := memRead_eq_ok.mp hw
  have hps : fetchCells s (s.ip.toInt + 1) h.op.arity = .error (.addressOutOfBound s.cfg.cap) := by
    rw [ha]
    exact fetchCells_past_end (a := a + 1) (j := k - 1) (by omega) (by omega)
  rw [hcap]
  exact step_of_fetch_error hs (fetchInstr_of_missing hw hh hps)

/-! ### A placed word is fetched -/

theorem fetchCells_congr {s t : State} (hmem : t.mem = s.mem) (hcfg : t.cfg = s.cfg) (a : Int)
    (n : Nat) : fetchCells t a n = fetchCells s a n := by
  have hread : ∀ b, memRead t b = memRead s b := by
    intro b
    simp only [memRead, checkAddr, State.cell, hmem, hcfg]
  induction n generalizing a with
  | zero => rfl
  | succ n ih => simp only [fetchCells, hread, ih]

theorem fetchCells_of_append {s : State} {a : Int} {n : Nat} {us vs : List Word}
    (h : fetchCells s a n = .ok (us ++ vs)) : fetchCells s a us.length = .ok us := by
  induction us generalizing a n with
  | nil => rfl
  | cons u us ih =>
    cases n with
    | zero => cases h
    | succ n =>
      obtain ⟨w, ws, hw, hws, heq⟩ := fetchCells_succ_eq_ok.mp h
      obtain ⟨rfl, rfl⟩ := List.cons.inj heq
      exact fetchCells_succ_eq_ok.mpr ⟨u, us, hw, ih hws, rfl⟩

/-- The fetch reads the instruction that the cells at `ip` decode to. -/
theorem fetchInstr_of_decode {s : State} {n : Nat} {ws rest : List Word} {i : Instr}
    (hws : fetchCells s s.ip.toInt n = .ok ws) (hd : decode ws = .ok (i, rest)) :
    fetchInstr s = .ok i := by
  obtain ⟨w, h, ps, rfl, hw, hps, rfl⟩ := decode_eq_ok.mp hd
  obtain ⟨u, us, hu, hus, heq⟩ :=
    fetchCells_succ_eq_ok.mp (fetchCells_of_append (us := w :: ps) hws)
  obtain ⟨rfl, rfl⟩ := List.cons.inj heq
  exact fetchInstr_eq_ok.mpr ⟨w, h, ps, hu, hw, hps ▸ hus, rfl⟩

theorem placeCells_cons_of_lt {s : State} {a : Nat} {w : Word} {ws : List Word}
    (h : a < s.cfg.cap) : s.placeCells a (w :: ws) = (s.setCell a w).placeCells (a + 1) ws := by
  rw [State.placeCells, if_pos h]

@[simp] theorem placeCells_cfg (s : State) (a : Nat) (ws : List Word) :
    (s.placeCells a ws).cfg = s.cfg := by
  induction ws generalizing s a with
  | nil => rfl
  | cons w ws ih =>
    rw [State.placeCells, ih]
    split <;> rfl

theorem placeCells_cell_of_lt {s : State} {a b : Nat} {ws : List Word} (h : b < a) :
    (s.placeCells a ws).cell b = s.cell b := by
  induction ws generalizing s a with
  | nil => rfl
  | cons w ws ih =>
    rw [State.placeCells, ih (by omega)]
    split
    · exact Memory.get_set_ne (Nat.ne_of_lt h)
    · rfl

/-- Cells placed inside a canonical memory are fetched back. -/
theorem fetchCells_placeCells {s : State} {a : Nat} {ws : List Word} (hwf : s.mem.wf = true)
    (h : a + ws.length ≤ s.cfg.cap) :
    fetchCells (s.placeCells a ws) a ws.length = .ok ws := by
  induction ws generalizing s a with
  | nil => rfl
  | cons w ws ih =>
    rw [List.length_cons] at h
    have hread : memRead (s.placeCells a (w :: ws)) a = .ok w := by
      rw [memRead_of_lt (by rw [placeCells_cfg]; omega), placeCells_cons_of_lt (by omega),
        placeCells_cell_of_lt (Nat.lt_succ_self a)]
      exact congrArg Except.ok (Memory.get_set_self hwf)
    have hrest := ih (s := s.setCell a w) (a := a + 1) (Memory.set_wf hwf)
      (by rw [State.setCell_cfg]; omega)
    rw [← placeCells_cons_of_lt (by omega)] at hrest
    exact fetchCells_succ_eq_ok.mpr ⟨w, ws, hread, hrest, rfl⟩

theorem fetchBase_add_four_le {s : State} (h : 4 ≤ s.cfg.cap) : s.fetchBase + 4 ≤ s.cfg.cap := by
  unfold State.fetchBase
  split <;> omega

/-- The fetch address is inside memory, so it is the value of the `ip` made from it (R5). -/
theorem withFetchCells_ip_toInt {s : State} (h : 4 ≤ s.cfg.cap) (ws : List Word) :
    (s.withFetchCells ws).ip.toInt = s.fetchBase := by
  have hbase := fetchBase_add_four_le h
  exact toInt_ofNat_of_fits (fits_of_lt_cap (s := s) (by omega))

/-- Up to four cells placed at the fetch point are what the next step fetches. -/
theorem fetchCells_withFetchCells {s : State} {ws : List Word} (hwf : s.mem.wf = true)
    (hcap : 4 ≤ s.cfg.cap) (hws : ws.length ≤ 4) :
    fetchCells (s.withFetchCells ws) (s.withFetchCells ws).ip.toInt ws.length = .ok ws := by
  have hbase := fetchBase_add_four_le hcap
  rw [withFetchCells_ip_toInt hcap,
    fetchCells_congr (s := s.placeCells s.fetchBase ws) (t := s.withFetchCells ws) rfl rfl]
  exact fetchCells_placeCells hwf (by omega)

theorem decodeTableWord_eq_some {nbits w : Nat} {i : Instr} :
    decodeTableWord nbits w = some i ↔ ∃ rest, decode (tableCells nbits w) = .ok (i, rest) := by
  unfold decodeTableWord
  split <;> simp_all

/-- Settles O60: the placed cells are fetched, and they decode to the instruction. -/
theorem placedWordIsRunNext : Obligations.PlacedWordIsRunNext := by
  intro s nbits w i hwf hcap hi
  obtain ⟨rest, hd⟩ := decodeTableWord_eq_some.mp hi
  have hcells := fetchCells_withFetchCells (ws := tableCells nbits w) hwf hcap le_rfl
  rw [step_of_running rfl]
  exact runInstr_of_fetch_ok (fetchInstr_of_decode hcells hd)

end Sys2Proof.Machine
end

section
/-! PROOFS. The family of 40_step_cycle.md: a step is a fetch and the execution of what was fetched,
it always answers a next state, in one of four ways, and the run loop repeats it until the engine
has stopped. -/

namespace Sys2Proof.Machine

/-! ### Fetch and commit -/

theorem step_of_fetch_ok {s : State} {i : Instr} (hs : s.status = .running)
    (h : fetchInstr s = .ok i) : step s = exec i s := by
  rw [step_of_running hs, runInstr_of_fetch_ok h]

theorem fetchCells_cellsFrom (s : State) (a : Int) (n : Nat) :
    fetchCells s a (s.cellsFrom a n).length = .ok (s.cellsFrom a n) := by
  induction n generalizing a with
  | zero => rfl
  | succ n ih =>
    unfold State.cellsFrom
    cases hw : memRead s a with
    | error e => rfl
    | ok w => exact fetchCells_succ_eq_ok.mpr ⟨w, _, hw, ih (a + 1), rfl⟩

/-- Settles O6: the cells of the window can be fetched, so the fetch reads what they decode to. -/
theorem stepRunsTheDecodedInstruction : Obligations.StepRunsTheDecodedInstruction := by
  intro s i rest hs hd
  exact step_of_fetch_ok hs (fetchInstr_of_decode (fetchCells_cellsFrom s s.ip.toInt 4) hd)

/-- Settles O7: the read of the instruction word is the first thing that can fault. -/
theorem fetchOutsideMemoryFaults : Obligations.FetchOutsideMemoryFaults := by
  intro s hs hip
  have hf : fetchInstr s = .error (.addressOutOfBound s.ip.toInt) :=
    bind_eq_error.mpr (.inl (memRead_of_outside hip))
  exact ⟨step_of_fetch_error hs hf, BitVec.ofInt_toInt, rfl⟩

/-- The commit adds integers and narrows the sum once. -/
theorem State.advance_ip_eq_ofInt (s : State) (n : Nat) :
    (s.advance n).ip = BitVec.ofInt 64 (s.ip.toInt + n) := by
  rw [State.advance_ip, BitVec.ofInt_add, BitVec.ofInt_toInt, BitVec.ofInt_natCast]

/-- Settles O11: the sum is at most CAP + 3, and CAP is at most 2^62 (R5), so it fits. -/
theorem commitIsExact : Obligations.CommitIsExact := by
  intro s n h0 hcap hn
  have hle := s.cfg.cap_le
  have hfits : fits (s.ip.toInt + n) := by
    simp only [fits, minInt, maxInt]
    omega
  rw [State.advance_ip_eq_ofInt, toInt_ofInt_of_fits hfits]

/-! ### How a step ends -/

/-- A step always answers a next state, since what is fetched is well formed. -/
theorem step_exists_next (s : State) : ∃ t, step s = .next t := by
  by_cases hs : s.status = .running
  · cases hf : fetchInstr s with
    | error e => exact ⟨_, step_of_fetch_error hs hf⟩
    | ok i =>
      rw [step_of_fetch_ok hs hf]
      exact exec_exists_next s (fetchInstr_wellFormed hf)
  · exact ⟨s, step_of_stopped hs⟩

/-- Settles O9: `cycle` answers the state it is given in each of the three stopped statuses. -/
theorem stoppedEngineIdles : Obligations.StoppedEngineIdles := fun _ => step_of_stopped

/-- Settles O10, by the ways an instruction ends. -/
theorem stepEndsInOneOfFourWays : Obligations.StepEndsInOneOfFourWays := by
  intro s hs
  obtain ⟨t, ht⟩ := step_exists_next s
  refine ⟨t, ht, ?_⟩
  cases step_stepsTo ht with
  | idle h => exact absurd hs h
  | fetchFault => exact .inr (.inr (.inr ⟨_, rfl, rfl⟩))
  | executed _ hf he =>
    cases exec_endsIn he with
    | faulted => exact .inr (.inr (.inr ⟨_, rfl, rfl⟩))
    | suspended hq => exact .inr (.inr (.inl ⟨_, hf, hq, rfl⟩))
    | halted => exact .inr (.inl ⟨hf, rfl⟩)
    | stored hlen =>
      refine .inl ⟨_, hf, ?_, he, hs, rfl, rfl, rfl, .inl (by rw [hlen]; rfl)⟩
      rintro rfl
      cases hlen
    | jumped hi hy =>
      refine .inl ⟨_, hf, ?_, he, hs, rfl, rfl, rfl, .inr ⟨_, _, hi, hy⟩⟩
      rcases hi with rfl | rfl <;> simp
    | fellThrough hi =>
      rcases hi with rfl | rfl <;>
        exact .inl ⟨_, hf, by simp, he, hs, rfl, rfl, rfl, .inl rfl⟩
    | popped | appended | rebased =>
      exact .inl ⟨_, hf, by simp, he, hs, rfl, rfl, rfl, .inl rfl⟩

/-! ### The run loop -/

theorem runLoop_of_step {s t u : State} (hs : s.status = .running) (h : step s = .next t) :
    RunLoop s u ↔ RunLoop t u := by
  refine ⟨fun hr => ?_, .step hs h⟩
  cases hr with
  | stopped hn => exact absurd hs hn
  | step _ h' ht =>
    rw [h] at h'
    cases h'
    exact ht

theorem RunLoop.not_running {s t : State} (h : RunLoop s t) : t.status ≠ .running := by
  induction h with
  | stopped h => exact h
  | step _ _ _ ih => exact ih

/-- Settles O51: the loop ends in a stopped state, whose completion is read off its status. -/
theorem runReportsWhyItStopped : Obligations.RunReportsWhyItStopped := by
  intro s t h
  have hstop : t.status ≠ .running := RunLoop.not_running h
  cases ht : t.status with
  | running => exact absurd ht hstop
  | halted | waitingForInput | faulted => simp [State.completion?, ht]

theorem runFuel_of_stopped {s : State} (n : Nat) (h : s.status ≠ .running) :
    runFuel n s = some s := by
  cases n <;> simp [runFuel, h]

theorem runFuel_zero_of_running {s : State} (h : s.status = .running) : runFuel 0 s = none := by
  simp [runFuel, h]

theorem runFuel_succ_of_step {s t : State} {n : Nat} (hs : s.status = .running)
    (h : step s = .next t) : runFuel (n + 1) s = runFuel n t := by
  simp [runFuel, hs, h]

theorem runLoop_of_runFuel {n : Nat} {s t : State} (h : runFuel n s = some t) : RunLoop s t := by
  induction n generalizing s with
  | zero =>
    by_cases hs : s.status = .running
    · cases (runFuel_zero_of_running hs).symm.trans h
    · obtain rfl := Option.some.inj ((runFuel_of_stopped 0 hs).symm.trans h)
      exact .stopped hs
  | succ n ih =>
    by_cases hs : s.status = .running
    · obtain ⟨u, hu⟩ := step_exists_next s
      exact .step hs hu (ih ((runFuel_succ_of_step hs hu).symm.trans h))
    · obtain rfl := Option.some.inj ((runFuel_of_stopped (n + 1) hs).symm.trans h)
      exact .stopped hs

theorem RunLoop.exists_fuel {s t : State} (h : RunLoop s t) : ∃ n, runFuel n s = some t := by
  induction h with
  | stopped h => exact ⟨0, runFuel_of_stopped 0 h⟩
  | step hs h _ ih =>
    obtain ⟨n, hn⟩ := ih
    exact ⟨n + 1, (runFuel_succ_of_step hs h).trans hn⟩

/-- Settles O53: one unit of fuel for each step of the loop. -/
theorem fuelledRunIsTheRunLoop : Obligations.FuelledRunIsTheRunLoop :=
  fun _ _ => ⟨RunLoop.exists_fuel, fun ⟨_, h⟩ => runLoop_of_runFuel h⟩

/-- A running state that steps to itself is never left. -/
theorem not_runLoop_of_step_self {s t : State} (hs : s.status = .running)
    (h : step s = .next s) : ¬ RunLoop s t := by
  intro hr
  induction hr with
  | stopped hn => exact hn hs
  | step _ hst _ ih =>
    rw [h] at hst
    cases hst
    exact ih hs h

/-- Settles O54: the jump writes the `ip` that stands there, so the step changes nothing. -/
theorem selfJumpNeverReturns : Obligations.SelfJumpNeverReturns := by
  intro s a b x hs hf hx hne hip t
  have hbody : jumpWhen conditionTrue a b s = .ok s :=
    jumpWhen_eq_ok.mpr ⟨x, s.ip, hx, hip, by simp [conditionTrue, hne, State.jump]⟩
  have hself : step s = .next s := by
    rw [step_of_fetch_ok hs hf]
    exact settle_eq_next.mpr (.inl hbody)
  exact not_runLoop_of_step_self hs hself

/-! ### Suspension and resumption -/

/-- Fetch and decode read memory and `ip` only. -/
theorem fetchInstr_congr (s t : State) (hmem : t.mem = s.mem) (hcfg : t.cfg = s.cfg)
    (hip : t.ip = s.ip) : fetchInstr t = fetchInstr s := by
  have hread : ∀ a, memRead t a = memRead s a := by
    intro a
    simp only [memRead, checkAddr, State.cell, hmem, hcfg]
  simp only [fetchInstr, hip, hread, fetchCells_congr hmem hcfg]

/-- An Input on an empty queue suspends the engine, and the run is over. -/
theorem runLoop_of_starved {s t : State} {dst : Operand} (hs : s.status = .running)
    (hq : s.inq = []) (hf : fetchInstr s = .ok (.input dst)) : RunLoop s t ↔ t = s.suspend := by
  obtain ⟨u, hu⟩ := step_exists_next s
  obtain rfl := exec_input_of_empty hq ((step_of_fetch_ok hs hf).symm.trans hu)
  rw [runLoop_of_step hs hu]
  exact runLoop_of_stopped (by simp)

theorem run_of_not_waiting {s t : State} (h : s.status ≠ .waitingForInput) :
    Run s t ↔ RunLoop s t := by
  rcases s.resume_cases with ⟨hw, -⟩ | ⟨-, hr⟩
  · exact absurd hw h
  · rw [Run, hr]

theorem run_of_waiting {s t : State} (h : s.status = .waitingForInput) :
    Run s t ↔ RunLoop { s with status := .running } t := by
  rcases s.resume_cases with ⟨-, hr⟩ | ⟨hn, -⟩
  · rw [Run, hr]
  · exact absurd h hn

/-- Settles O50. A waiting engine whose queue is still empty fetches the same Input again and
suspends in the state it stood in. -/
theorem runByStatus : Obligations.RunByStatus := by
  intro s t
  refine ⟨fun hs => run_of_not_waiting (by simp [hs]), run_of_waiting, fun dst hs hq hf => ?_,
    fun hs => ?_, fun hs => ?_⟩
  · have hfetch : fetchInstr { s with status := .running } = .ok (.input dst) :=
      (fetchInstr_congr s { s with status := .running } rfl rfl rfl).trans hf
    have hsusp : State.suspend { s with status := .running } = s := by simp [State.suspend, ← hs]
    rw [run_of_waiting hs,
      runLoop_of_starved (s := { s with status := .running }) rfl hq hfetch, hsusp]
  · exact ⟨run_of_not_live (isLive_eq_false.mpr (.inl hs)), by simp [State.completion?, hs]⟩
  · exact ⟨run_of_not_live (isLive_eq_false.mpr (.inr hs)), by simp [State.completion?, hs]⟩

/-- Settles O55: the suspension changed only the status, which the next run sets back, so the Input
stands at `ip` as before, with the value queued. -/
theorem starvedInputIsRetried : Obligations.StarvedInputIsRetried := by
  intro s t u v dst hs hq hf hr
  obtain rfl := (runLoop_of_starved hs hq hf).mp ((run_of_not_waiting (by simp [hs])).mp hr)
  have hback : { s.suspend.input v with status := .running } = { s with inq := [v] } := by
    simp [State.input, State.setInq, State.suspend, hq, ← hs]
  rw [run_of_waiting rfl, hback]

end Sys2Proof.Machine
end

section
/-! PROOFS. The family of 41_arithmetic.md: the word of an instruction is written digit by digit from
its mode slots, and an instruction that stores the narrowed result of its two sources completes or
faults as the chain read a, read b, narrow, check the destination does. -/

namespace Sys2Proof.Machine

open Sys2Proof.Claims

/-! ### The encoding, slot by slot -/

theorem modeDigits_of_length_le {os : List Operand} (h : os.length ≤ 3) :
    modeDigits os = ((os.map Operand.mode).getD 0 .direct).digit +
      10 * ((os.map Operand.mode).getD 1 .direct).digit +
      100 * ((os.map Operand.mode).getD 2 .direct).digit := by
  match os, h with
  | [], _ => rfl
  | [_], _ => rfl
  | [_, _], _ => rfl
  | [a, b, c], _ =>
    simp only [modeDigits, List.map_cons, List.getD_cons_zero, List.getD_cons_succ]
    omega

/-- The cells of any instruction, with the word of R50 and the parameters of R51. -/
theorem encode_eq_wordOf (i : Instr) : encode i =
    wordOf i.opcode.code (i.slotMode 0).digit (i.slotMode 1).digit (i.slotMode 2).digit ::
      i.operands.map Operand.param := by
  have hlen : i.operands.length ≤ 3 := by
    rw [i.operands_length]
    exact i.opcode.arity_le
  have hword : i.word = (i.slotMode 2).digit * 10000 + (i.slotMode 1).digit * 1000 +
      (i.slotMode 0).digit * 100 + i.opcode.code := by
    simp only [Instr.word, modeDigits_of_length_le hlen, Instr.slotMode]
    omega
  rw [encode, hword, wordOf]

/-! ### Storing the narrowed result of two sources -/

theorem narrow_of_fits {v : Int} (h : fits v) : narrow v = .ok (BitVec.ofInt 64 v) :=
  narrow_eq_ok.mpr (toInt_ofInt_of_fits h)

/-- What the body of a storing instruction raises, in the order of R137: source a, source b, the
result, the destination. -/
theorem storeResult_eq_error_iff {alu : Word → Word → Except Raised Word} {a b : Operand}
    {l : Location} {s : State} {e : Raised} : storeResult alu a b l s = .error e ↔
      readOperand s a = .error e ∨ ∃ x, readOperand s a = .ok x ∧
        (readOperand s b = .error e ∨ ∃ y, readOperand s b = .ok y ∧
          (alu x y = .error e ∨ ∃ r, alu x y = .ok r ∧ writeTarget s l = .error e)) := by
  simp [storeResult, bind_eq_error]

/-- The instructions `mk` are run by the shared body `storeResult`, with the integer function `f`
narrowed once as their ALU. -/
def StoresNarrowed (mk : Operand → Operand → Operand → Instr) (f : Int → Int → Int) : Prop :=
  ∀ (a b dst : Operand) (l : Location) (s : State), dst.location? = some l →
    exec (mk a b dst) s =
      settle s (storeResult (fun x y => narrow (f x.toInt y.toInt)) a b l s)

theorem add_storesNarrowed : StoresNarrowed Instr.add (fun x y => x + y) :=
  fun _ _ _ _ _ hl => withDestination_of_location hl

theorem mul_storesNarrowed : StoresNarrowed Instr.mul (fun x y => x * y) :=
  fun _ _ _ _ _ hl => withDestination_of_location hl

section
variable {mk : Operand → Operand → Operand → Instr} {f : Int → Int → Int}

theorem StoresNarrowed.exec_of_error (hmk : StoresNarrowed mk f) {a b dst : Operand} {l : Location}
    {s : State} {e : Raised} (hl : dst.location? = some l)
    (h : storeResult (fun x y => narrow (f x.toInt y.toInt)) a b l s = .error e) :
    exec (mk a b dst) s = .next (s.faultEntry e) :=
  (hmk a b dst l s hl).trans (settle_eq_next.mpr (.inr ⟨e, h, rfl⟩))

theorem StoresNarrowed.storesResult (hmk : StoresNarrowed mk f) : StoresResult mk f := by
  intro a b dst l s x y d hl hx hy hf hd
  have hrun : exec (mk a b dst) s =
      .next ((s.setCell d (BitVec.ofInt 64 (f x.toInt y.toInt))).advance 4) :=
    (hmk a b dst l s hl).trans (settle_eq_next.mpr (.inl (storeResult_eq_ok.mpr
      ⟨x, y, _, d, hx, hy, narrow_of_fits hf, hd, rfl⟩)))
  refine ⟨_, hrun, rfl, fun hwf => ?_, fun k hk => Memory.get_set_ne hk⟩
  calc (((s.setCell d (BitVec.ofInt 64 (f x.toInt y.toInt))).advance 4).cell d).toInt
      = (BitVec.ofInt 64 (f x.toInt y.toInt)).toInt := congrArg _ (Memory.get_set_self hwf)
    _ = f x.toInt y.toInt := toInt_ofInt_of_fits hf

theorem StoresNarrowed.operandFaults (hmk : StoresNarrowed mk f) : OperandFaults mk f := by
  intro a b dst l s e hl
  refine ⟨fun ha => ?_, fun x hx hb => ?_, fun x y hx hy hf hd => ?_⟩
  · exact hmk.exec_of_error hl (storeResult_eq_error_iff.mpr (.inl ha))
  · exact hmk.exec_of_error hl (storeResult_eq_error_iff.mpr (.inr ⟨x, hx, .inl hb⟩))
  · exact hmk.exec_of_error hl (storeResult_eq_error_iff.mpr
      (.inr ⟨x, hx, .inr ⟨y, hy, .inr ⟨_, narrow_of_fits hf, hd⟩⟩⟩))

theorem StoresNarrowed.resultOverflows (hmk : StoresNarrowed mk f) : ResultOverflows mk f := by
  intro a b dst l s x y hl hx hy hf
  have hover : narrow (f x.toInt y.toInt) = .error .arithmeticOverflow :=
    narrow_eq_error.mpr ⟨hf, rfl⟩
  exact hmk.exec_of_error hl
    (storeResult_eq_error_iff.mpr (.inr ⟨x, hx, .inr ⟨y, hy, .inl hover⟩⟩))

end

/-- Settles O18: Add stores the narrowed sum. -/
theorem addStoresTheExactSum : Obligations.AddStoresTheExactSum :=
  ⟨fun a b dst => encode_eq_wordOf (.add a b dst), add_storesNarrowed.storesResult,
    add_storesNarrowed.operandFaults, add_storesNarrowed.resultOverflows⟩

/-- Settles O19: Mul stores the narrowed product. -/
theorem mulStoresTheExactProduct : Obligations.MulStoresTheExactProduct :=
  ⟨fun a b dst => encode_eq_wordOf (.mul a b dst), mul_storesNarrowed.storesResult,
    mul_storesNarrowed.operandFaults, mul_storesNarrowed.resultOverflows⟩

end Sys2Proof.Machine
end

section
/-! PROOFS. The family of 42_io.md: Input suspends on an empty queue and otherwise runs
`storeInput`, which raises what its destination check raises; Output runs `appendOperand`, which
raises what reading its operand raises. -/

namespace Sys2Proof.Machine

open Sys2Proof.Claims

theorem storeInput_eq_error_iff {v : Word} {rest : List Word} {l : Location} {s : State}
    {e : Raised} : storeInput v rest l s = .error e ↔ writeTarget s l = .error e := by
  simp [storeInput, bind_eq_error]

theorem appendOperand_eq_error_iff {a : Operand} {s : State} {e : Raised} :
    appendOperand a s = .error e ↔ readOperand s a = .error e := by
  simp [appendOperand, bind_eq_error]

section
variable {dst : Operand} {l : Location} {s : State}

theorem exec_input_of_nil (hl : dst.location? = some l) (hq : s.inq = []) :
    exec (.input dst) s = .next s.suspend := by
  refine (withDestination_of_location hl).trans ?_
  rw [hq]

theorem exec_input_of_cons {v : Word} {rest : List Word} (hl : dst.location? = some l)
    (hq : s.inq = v :: rest) : exec (.input dst) s = settle s (storeInput v rest l s) := by
  refine (withDestination_of_location hl).trans ?_
  rw [hq]

end

/-- Settles O22, by the queue and then by what the destination check answers. -/
theorem inputPopsOrSuspends : Obligations.InputPopsOrSuspends := by
  intro dst l s hl
  refine ⟨encode_eq_wordOf (.input dst), exec_input_of_nil hl, fun v rest d hq hd => ?_,
    fun v rest e hq he => ⟨?_, hq⟩⟩
  · have hrun : exec (.input dst) s = .next (((s.setInq rest).setCell d v).advance 2) :=
      (exec_input_of_cons hl hq).trans
        (settle_eq_next.mpr (.inl (storeInput_eq_ok.mpr ⟨d, hd, rfl⟩)))
    exact ⟨_, hrun, rfl, fun hwf => Memory.get_set_self hwf, fun k hk => Memory.get_set_ne hk⟩
  · exact (exec_input_of_cons hl hq).trans
      (settle_eq_next.mpr (.inr ⟨e, storeInput_eq_error_iff.mpr he, rfl⟩))

/-- Settles O23, by whether the operand can be read. -/
theorem outputAppendsItsOperand : Obligations.OutputAppendsItsOperand := by
  intro a s
  refine ⟨encode_eq_wordOf (.output a), fun x hx => ?_, fun e he => ⟨?_, rfl⟩⟩
  · exact settle_eq_next.mpr (.inl (appendOperand_eq_ok.mpr ⟨x, hx, rfl⟩))
  · exact settle_eq_next.mpr (.inr ⟨e, appendOperand_eq_error_iff.mpr he, rfl⟩)

end Sys2Proof.Machine
end

section
/-! PROOFS. The family of 43_jumps.md: a conditional jump runs `jumpWhen`, which reads both operands
in order, raises the first fault of the two reads, and only then tests its condition. -/

namespace Sys2Proof.Machine

open Sys2Proof.Claims

/-- What the body of a conditional jump raises, in the order of R137; the condition plays no part
(D10). -/
theorem jumpWhen_eq_error_iff {cond : Word → Bool} {a b : Operand} {s : State} {e : Raised} :
    jumpWhen cond a b s = .error e ↔
      readOperand s a = .error e ∨ ∃ x, readOperand s a = .ok x ∧ readOperand s b = .error e := by
  simp [jumpWhen, bind_eq_error]

theorem conditionTrue_iff {x : Word} : conditionTrue x = true ↔ x.toInt ≠ 0 := decide_eq_true_iff

theorem conditionFalse_iff {x : Word} : conditionFalse x = true ↔ x.toInt = 0 := decide_eq_true_iff

/-- An instruction run by the shared body `jumpWhen` jumps when the condition of its body holds. -/
theorem jumpsWhen_of_exec {mk : Operand → Operand → Instr} {test : Word → Bool} {cond : Int → Prop}
    {op : Nat}
    (hencode : ∀ a b, encode (mk a b) = [wordOf op a.mode.digit b.mode.digit 0, a.param, b.param])
    (hexec : ∀ a b s, exec (mk a b) s = settle s (jumpWhen test a b s))
    (htest : ∀ {x}, test x = true ↔ cond x.toInt) : JumpsWhen mk cond op := by
  intro a b s
  rw [hexec]
  refine ⟨hencode a b, fun x y hx hy hc => ?taken, fun x y hx hy hc => ?notTaken,
    fun e ha => ?firstFaults, fun x e hx hb => ?secondFaults⟩
  case taken =>
    have hbody : jumpWhen test a b s = .ok (s.jump y) :=
      jumpWhen_eq_ok.mpr ⟨x, y, hx, hy, (if_pos (htest.mpr hc)).symm⟩
    exact settle_eq_next.mpr (.inl hbody)
  case notTaken =>
    have hbody : jumpWhen test a b s = .ok (s.advance 3) :=
      jumpWhen_eq_ok.mpr ⟨x, y, hx, hy, (if_neg (hc ∘ htest.mp)).symm⟩
    exact settle_eq_next.mpr (.inl hbody)
  case firstFaults =>
    exact settle_eq_next.mpr (.inr ⟨e, jumpWhen_eq_error_iff.mpr (.inl ha), rfl⟩)
  case secondFaults =>
    exact settle_eq_next.mpr (.inr ⟨e, jumpWhen_eq_error_iff.mpr (.inr ⟨x, hx, hb⟩), rfl⟩)

/-- Settles O24: JumpIfTrue is `jumpWhen` with the test for a nonzero value. -/
theorem jumpIfTrueJumpsOnNonzero : Obligations.JumpIfTrueJumpsOnNonzero :=
  jumpsWhen_of_exec (fun a b => encode_eq_wordOf (.jumpIfTrue a b)) (fun _ _ _ => rfl)
    conditionTrue_iff

/-- Settles O25: JumpIfFalse is `jumpWhen` with the test for zero. -/
theorem jumpIfFalseJumpsOnZero : Obligations.JumpIfFalseJumpsOnZero :=
  jumpsWhen_of_exec (fun a b => encode_eq_wordOf (.jumpIfFalse a b)) (fun _ _ _ => rfl)
    conditionFalse_iff

end Sys2Proof.Machine
end

section
/-! PROOFS. The family of 44_compare.md: the truth value of a comparison always fits a cell, so
storing it is storing a narrowed result, and the rules of `StoresNarrowed` carry over. -/

namespace Sys2Proof.Machine

open Sys2Proof.Claims

/-- A truth value is narrowed to its cell value without a fault (R100, R101). -/
theorem narrow_truth (p : Prop) [Decidable p] :
    narrow (if p then 1 else 0) = .ok (truthWord (decide p)) := by
  by_cases hp : p
  · rw [if_pos hp, decide_eq_true hp]
    exact narrow_of_fits (by decide)
  · rw [if_neg hp, decide_eq_false hp]
    exact narrow_of_fits (by decide)

theorem aluLessThan_eq_narrow :
    aluLessThan = fun x y => narrow (if x.toInt < y.toInt then 1 else 0) :=
  funext fun _ => funext fun _ => (narrow_truth _).symm

theorem aluEquals_eq_narrow :
    aluEquals = fun x y => narrow (if x.toInt = y.toInt then 1 else 0) :=
  funext fun _ => funext fun _ => (narrow_truth _).symm

theorem lessThan_storesNarrowed :
    StoresNarrowed Instr.lessThan (fun x y => if x < y then 1 else 0) := by
  intro a b dst l s hl
  rw [← aluLessThan_eq_narrow]
  exact withDestination_of_location hl

theorem equals_storesNarrowed :
    StoresNarrowed Instr.equals (fun x y => if x = y then 1 else 0) := by
  intro a b dst l s hl
  rw [← aluEquals_eq_narrow]
  exact withDestination_of_location hl

/-- Settles O20: LessThan stores the truth value of the signed comparison, narrowed without a fault. -/
theorem lessThanStoresZeroOrOne : Obligations.LessThanStoresZeroOrOne :=
  ⟨fun a b dst => encode_eq_wordOf (.lessThan a b dst), lessThan_storesNarrowed.storesResult,
    lessThan_storesNarrowed.operandFaults⟩

/-- Settles O21: Equals stores the truth value of the equality, narrowed without a fault. -/
theorem equalsStoresZeroOrOne : Obligations.EqualsStoresZeroOrOne :=
  ⟨fun a b dst => encode_eq_wordOf (.equals a b dst), equals_storesNarrowed.storesResult,
    equals_storesNarrowed.operandFaults⟩

end Sys2Proof.Machine
end

section
/-! PROOFS. The family of 45_relative_base.md: AdjustRelativeBase runs `adjustBase`, which raises
what reading its operand raises, and after that only the overflow of the sum. -/

namespace Sys2Proof.Machine

open Sys2Proof.Claims

/-- What the body of AdjustRelativeBase raises, in the order of R137: the operand, the sum. -/
theorem adjustBase_eq_error_iff {a : Operand} {s : State} {e : Raised} :
    adjustBase a s = .error e ↔
      readOperand s a = .error e ∨ ∃ x, readOperand s a = .ok x ∧ aluAdd s.rb x = .error e := by
  simp [adjustBase, bind_eq_error]

/-- Settles O26, by whether the operand can be read and the sum fits. -/
theorem adjustRelativeBaseAdds : Obligations.AdjustRelativeBaseAdds := by
  intro a s
  refine ⟨encode_eq_wordOf (.adjustRelativeBase a), fun x hx hf => ?sumFits,
    fun x hx hf => ?sumOverflows, fun e he => ?operandFaults⟩
  case sumFits =>
    exact ⟨_, toInt_ofInt_of_fits hf, settle_eq_next.mpr
      (.inl (adjustBase_eq_ok.mpr ⟨x, _, hx, narrow_of_fits hf, rfl⟩))⟩
  case sumOverflows =>
    have hover : aluAdd s.rb x = .error .arithmeticOverflow := narrow_eq_error.mpr ⟨hf, rfl⟩
    exact settle_eq_next.mpr
      (.inr ⟨_, adjustBase_eq_error_iff.mpr (.inr ⟨x, hx, hover⟩), rfl⟩)
  case operandFaults =>
    exact settle_eq_next.mpr (.inr ⟨e, adjustBase_eq_error_iff.mpr (.inl he), rfl⟩)

end Sys2Proof.Machine
end

section
/-! PROOFS. The family of 46_halt.md: Halt has no operands, so its word alone is its encoding, and the
state it leaves is stopped, so `run` does nothing there. -/

namespace Sys2Proof

theorem Header.instrOf_of_halt {h : Header} (hop : h.op = .halt) (ps : List Word) :
    h.instrOf ps = .halt := by
  simp [Header.instrOf, Header.instr, hop]

theorem word_eq_of_decodeHeader_halt {w : Word} {h : Header} (hw : decodeHeader w = .ok h)
    (hop : h.op = .halt) : w = 99#64 := by
  have harity : ([] : List Word).length = h.op.arity := by rw [hop]; rfl
  have hcells : encode .halt = [w] := by
    rw [← Header.instrOf_of_halt hop [], encode_of_decodeHeader hw harity]
  exact (List.cons.inj hcells).1.symm

end Sys2Proof

namespace Sys2Proof.Machine

/-- Settles O27: the word decodes to Halt, whose encoding is 99, and the halted state is not live. -/
theorem haltStopsTheEngine : Obligations.HaltStopsTheEngine := by
  refine ⟨rfl, fun _ _ => word_eq_of_decodeHeader_halt, fun s => ⟨s.setHalted.advance 1, rfl, rfl, ?_⟩⟩
  have hdead : (s.setHalted.advance 1).isLive = false := isLive_eq_false.mpr (.inl rfl)
  exact ⟨fun _ => run_of_not_live hdead, fun _ => .input, .output, hdead ▸ .status⟩

end Sys2Proof.Machine
end

section
/-! PROOFS. The family of 50_host_interface.md: what each transaction answers and leaves, the invariant
and the log's prefix along runs, and the feedback pipeline. -/

namespace Sys2Proof.Machine

/-! ### What every step keeps, a run keeps -/

theorem runLoop_keeps {P : State → Prop} (hstep : ∀ s t, P s → step s = .next t → P t)
    {s t : State} (h : RunLoop s t) (hs : P s) : P t := by
  induction h with
  | stopped => exact hs
  | step _ h _ ih => exact ih (hstep _ _ hs h)

/-! ### What each transaction but a run answers -/

section
variable {s t : State} {r : Reply}

theorem transact_reset_refused_iff {p : List Word} (h : s.cfg.cap < p.length) :
    Transact s (.reset p) r t ↔ r = .loadError ∧ t = s := by
  constructor
  · intro ht
    cases ht with
    | reset hn => exact absurd (newInstance_eq_some.mp hn).1 (Nat.not_le.mpr h)
    | resetRefused => exact ⟨rfl, rfl⟩
  · rintro ⟨rfl, rfl⟩
    exact .resetRefused (newInstance_eq_none.mpr h)

theorem transact_input_iff {v : Word} :
    Transact s (.input v) r t ↔ r = .unit ∧ t = s.input v :=
  ⟨by rintro ⟨⟩; exact ⟨rfl, rfl⟩, by rintro ⟨rfl, rfl⟩; exact .input⟩

theorem transact_output_iff : Transact s .output r t ↔ r = .log s.outlog ∧ t = s :=
  ⟨by rintro ⟨⟩; exact ⟨rfl, rfl⟩, by rintro ⟨rfl, rfl⟩; exact .output⟩

theorem transact_status_iff : Transact s .status r t ↔ t = s ∧ r = .live s.isLive :=
  ⟨by rintro ⟨⟩; exact ⟨rfl, rfl⟩, by rintro ⟨rfl, rfl⟩; exact .status⟩

theorem transact_peek_iff : Transact s .peek r t ↔ t = s ∧ r = .peeked s.peek :=
  ⟨by rintro ⟨⟩; exact ⟨rfl, rfl⟩, by rintro ⟨rfl, rfl⟩; exact .peek⟩

end

/-! ### The invariant -/

/-- Neither a running nor a suspended engine has anything latched. -/
theorem State.Inv.resume {s : State} (h : s.Inv) : s.resume.Inv := by
  rcases s.resume_cases with ⟨hw, hr⟩ | ⟨-, hr⟩
  · obtain ⟨hwf, hbelow, hlatch⟩ := h
    rw [State.latchOk_iff_of_not_faulted (by simp [hw])] at hlatch
    rw [hr]
    exact ⟨hwf, hbelow, (State.latchOk_iff_of_not_faulted (by simp)).mpr hlatch⟩
  · rwa [hr]

theorem Run.inv {s t : State} (h : Run s t) (hs : s.Inv) : t.Inv :=
  runLoop_keeps stepKeepsTheInvariant h hs.resume

theorem newInstance_inv {cfg : Config} {p : List Word} {s : State} (h : newInstance cfg p = some s) :
    s.Inv := by
  obtain ⟨hp, rfl⟩ := newInstance_eq_some.mp h
  exact State.loaded_inv hp

/-- Settles O44, by the kinds of transaction: a run keeps what its steps keep, and no other transaction
but `reset` touches memory or the latch. -/
theorem transactionsKeepTheInvariant : Obligations.TransactionsKeepTheInvariant := by
  refine ⟨fun _ _ _ => newInstance_inv, fun s t x r hs h => ?_⟩
  cases h with
  | reset h => exact newInstance_inv h
  | run h => exact h.inv hs
  | input | resetRefused | output | status | peek => exact hs

/-! ### The log grows at its end -/

theorem step_outlog_prefix {s t : State} (h : step s = .next t) : s.outlog <+: t.outlog := by
  obtain ⟨-, hlog | ⟨_, x, -, -, hlog⟩⟩ := onlyInputPopsAndOnlyOutputAppends s t h
  · rw [hlog]
  · rw [hlog]
    exact List.prefix_append s.outlog [x]

@[simp] theorem State.resume_outlog (s : State) : s.resume.outlog = s.outlog := by
  rcases s.resume_cases with ⟨-, hr⟩ | ⟨-, hr⟩ <;> rw [hr]

theorem Run.outlog_prefix {s t : State} (h : Run s t) : s.outlog <+: t.outlog :=
  runLoop_keeps (P := fun u => s.outlog <+: u.outlog)
    (fun _ _ hu h => hu.trans (step_outlog_prefix h)) h (by simp)

/-- Settles O48: the log grows in a run only, and there at its end. -/
theorem outputReturnsTheWholeLog : Obligations.OutputReturnsTheWholeLog := by
  refine ⟨fun _ _ _ => transact_output_iff, fun s x r t h hx => ?_⟩
  cases h with
  | reset => exact absurd rfl (hx _)
  | run h => exact h.outlog_prefix
  | input | resetRefused | output | status | peek => exact List.prefix_rfl

/-! ### The other transactions -/

/-- Settles O46. After the empty program the first word fetched is 0, which has no opcode. -/
theorem longProgramsAreRefused : Obligations.LongProgramsAreRefused := by
  have hword : memRead State.reset State.reset.ip.toInt = .ok 0#64 := rfl
  exact ⟨fun _ _ => newInstance_eq_none.mpr, fun _ _ h _ _ => transact_reset_refused_iff h,
    newInstance_eq_some.mpr ⟨Nat.zero_le _, rfl⟩,
    step_of_fetch_error rfl (fetchInstr_of_illegal (d := .unknownOpcode) hword rfl)⟩

/-- Settles O47: `input` has the one move of R112, which asks nothing of the status. -/
theorem inputTransactionAppends : Obligations.InputTransactionAppends :=
  fun _ _ _ _ => transact_input_iff

theorem State.isLive_eq_decide (s : State) :
    s.isLive = decide (s.status = .running ∨ s.status = .waitingForInput) := by
  unfold State.isLive
  cases s.status <;> rfl

theorem State.peek_cell? {s : State} {a : Nat} (h : a < s.cfg.cap) :
    s.peek.cell? a = some (s.cell a) := if_pos h

/-- Settles O49: each of the two has one reply, and leaves the state it was called in. -/
theorem statusAndPeekOnlyRead : Obligations.StatusAndPeekOnlyRead := by
  refine ⟨fun s r t => ?_, fun _ _ _ => transact_peek_iff,
    fun s => ⟨fun _ => State.peek_cell?, rfl, rfl, rfl, rfl, rfl, rfl⟩⟩
  rw [← State.isLive_eq_decide]
  exact transact_status_iff

/-! ### The pipeline -/

theorem RunLoop.unique {s t u : State} (ht : RunLoop s t) (hu : RunLoop s u) : t = u := by
  induction ht with
  | stopped h => exact ((runLoop_of_stopped h).mp hu).symm
  | step hs h _ ih => exact ih ((runLoop_of_step hs h).mp hu)

theorem PipelineTurn.unique {f g h : Fleet} {k : Nat} {v w x : Word} (hg : PipelineTurn f k v g w)
    (hh : PipelineTurn f k v h x) : g = h ∧ w = x := by
  obtain ⟨s, t, hs, ht, hw, rfl⟩ := hg
  obtain ⟨s', t', hs', ht', hx, rfl⟩ := hh
  obtain rfl := Option.some.inj (hs.symm.trans hs')
  obtain rfl := RunLoop.unique ht ht'
  exact ⟨rfl, Option.some.inj (hw.symm.trans hx)⟩

theorem PipelineTurn.getElem?_ne {f g : Fleet} {k j : Nat} {v w : Word}
    (h : PipelineTurn f k v g w) (hj : j ≠ k) : g[j]? = f[j]? := by
  obtain ⟨s, t, -, -, -, rfl⟩ := h
  exact List.getElem?_set_ne hj.symm

theorem PipelineTurn.driven {f g : Fleet} {k : Nat} {v w : Word} (h : PipelineTurn f k v g w) :
    ∃ t, g[k]? = some t ∧ t.status ≠ .running ∧ t.output.getLast? = some w := by
  obtain ⟨hk, -⟩ := h.length_eq
  obtain ⟨s, t, -, hrun, hw, rfl⟩ := h
  exact ⟨t, List.getElem?_set_self hk, RunLoop.not_running hrun, hw⟩

theorem PipelineLoop.ends_done {f g : Fleet} {k : Nat} {v w : Word} (h : PipelineLoop k f v g w) :
    pipelineDone g = true := by
  induction h with
  | done h => exact h
  | turn _ _ _ ih => exact ih

/-- The run of an instance that is done only leaves its input queued, so no turn revives one. -/
theorem PipelineTurn.keeps_done {f g : Fleet} {k : Nat} {v w : Word} (h : PipelineTurn f k v g w)
    (hf : pipelineDone f = true) : pipelineDone g = true := by
  rw [pipelineDone_iff] at hf ⊢
  obtain ⟨s, t, hs, hrun, -, rfl⟩ := h
  have hdead : (s.input v).status = .halted ∨ (s.input v).status = .faulted :=
    hf s (List.mem_of_getElem? hs)
  obtain rfl := (run_of_not_live (isLive_eq_false.mpr hdead)).mp hrun
  intro u hu
  rcases List.mem_or_eq_of_mem_set hu with hu | rfl
  · exact hf u hu
  · exact hdead

theorem PipelineFrom.keeps_done {f g : Fleet} {k : Nat} {v w : Word} (h : PipelineFrom k f v g w)
    (hf : pipelineDone f = true) : pipelineDone g = true := by
  induction h with
  | finished => exact hf
  | turn ht _ ih => exact ih (ht.keeps_done hf)

/-- While some instance is live the loop's next move is the turn, of which there is but one. -/
theorem PipelineTurn.loop_iff {f g h : Fleet} {k : Nat} {v w x : Word} (ht : PipelineTurn f k v g w)
    (hf : pipelineDone f = false) :
    PipelineLoop k f v h x ↔ PipelineLoop ((k + 1) % f.length) g w h x := by
  refine ⟨fun hl => ?_, .turn hf ht⟩
  cases hl with
  | done hd => cases hf.symm.trans hd
  | turn _ ht' hr =>
    obtain ⟨rfl, rfl⟩ := ht.unique ht'
    exact hr

/-- The rest of a pass, from instance `k` on, that leaves some instance live is where the loop goes
from there; after the last instance comes the first. -/
theorem PipelineFrom.loop_iff {f g h : Fleet} {k : Nat} {v w x : Word} (hp : PipelineFrom k f v g w)
    (hk : k ≤ f.length) (hg : pipelineDone g = false) :
    PipelineLoop (k % f.length) f v h x ↔ PipelineLoop 0 g w h x := by
  induction hp with
  | finished hlast => rw [hk.antisymm hlast, Nat.mod_self]
  | @turn k f g' g v w' w ht hr ih =>
    obtain ⟨hlt, hlen⟩ := ht.length_eq
    have hf : pipelineDone f = false := by
      by_contra hd
      rw [hr.keeps_done (ht.keeps_done (Bool.eq_true_of_not_eq_false hd))] at hg
      cases hg
    rw [Nat.mod_eq_of_lt hlt, ht.loop_iff hf, ← hlen]
    exact ih (hlen ▸ hlt) hg

theorem PipelinePass.loop_iff {f g h : Fleet} {v w x : Word} (hp : PipelinePass f v g w)
    (hlive : ∃ s ∈ g, s.isLive = true) : PipelineLoop 0 f v h x ↔ PipelineLoop 0 g w h x := by
  have hg : pipelineDone g = false := by simpa [pipelineDone] using hlive
  simpa using PipelineFrom.loop_iff hp (Nat.zero_le _) hg

/-- Settles O58. The loop tests for its end before every turn, and a live instance after the pass means
that none of the tests within it succeeded. -/
theorem pipelineTurnDrivesOneInstance : Obligations.PipelineTurnDrivesOneInstance := by
  refine ⟨fun f g k v w h => ⟨fun j hj => h.getElem?_ne hj, h.driven⟩, fun f g k v w h => ?_,
    fun f g v w hp hlive _ _ => PipelinePass.loop_iff hp hlive⟩
  have hdone := pipelineDone_iff.mp h.ends_done
  exact ⟨h.length_eq, fun s hs => isLive_eq_false.mpr (hdone s hs),
    fun hsafe s hs => (hdone s hs).resolve_right (hsafe s hs)⟩

end Sys2Proof.Machine
end

section
/-! PROOFS. The families of 60_exceptions.md and 70_reset_and_hazards.md: the words R132 lists are
those the decoder refuses, a step faults in its fetch or in an operand and leaves a state no run
moves, a suspension is undone by the next run, and every transaction is a function of the state. -/

namespace Sys2Proof

open Sys2Proof.Machine Sys2Proof.Claims

/-! ### The words R132 lists are those the decoder refuses -/

theorem Opcode.all_codes : Opcode.all.map Opcode.code = [1, 2, 3, 4, 5, 6, 7, 8, 9, 99] := rfl

theorem Opcode.mem_codes_iff {n : Nat} :
    n ∈ [1, 2, 3, 4, 5, 6, 7, 8, 9, 99] ↔ ∃ op : Opcode, op.code = n := by
  simp only [← Opcode.all_codes, List.mem_map, Opcode.mem_all, true_and]

theorem Mode.exists_digit_of_le {d : Nat} (h : d ≤ 2) : ∃ m : Mode, d = m.digit := by
  interval_cases d
  · exact ⟨.direct, rfl⟩
  · exact ⟨.immediate, rfl⟩
  · exact ⟨.relative, rfl⟩

theorem Mode.digit_eq_zero_iff {m : Mode} : m.digit = 0 ↔ m = .direct := by
  cases m <;> decide

theorem Mode.digit_eq_one_iff {m : Mode} : m.digit = 1 ↔ m = .immediate := by
  cases m <;> decide

theorem arityOf_code (op : Opcode) : arityOf op.code = op.arity := by cases op <;> rfl

/-- The destination slots of R40, by opcode field. -/
theorem Header.destinationMode_eq_immediate_iff {h : Header} :
    h.destinationMode = some .immediate ↔
      (h.op.code ∈ [1, 2, 7, 8] ∧ h.m3 = .immediate) ∨ (h.op.code = 3 ∧ h.m1 = .immediate) := by
  obtain ⟨op, m1, m2, m3⟩ := h
  cases op <;> simp [Header.destinationMode, Opcode.code]

/-- The decimal fields of the word are the header's (R50). -/
structure ReadsAs (w : Word) (h : Header) : Prop where
  op : opField w = h.op.code
  m1 : slotDigit w 1 = h.m1.digit
  m2 : slotDigit w 2 = h.m2.digit
  m3 : slotDigit w 3 = h.m3.digit

theorem decodeHeader_eq_ok_iff_readsAs {w : Word} {h : Header} :
    decodeHeader w = .ok h ↔ 0 ≤ w.toInt ∧ w.toInt ≤ 99999 ∧ ReadsAs w h ∧ h.Legal := by
  rw [decodeHeader_eq_ok]
  constructor
  · rintro ⟨h0, hlt, hop, h1, h2, h3, hlegal⟩
    exact ⟨h0, by omega, ⟨hop, h1, h2, h3⟩, hlegal⟩
  · rintro ⟨h0, hle, ⟨hop, h1, h2, h3⟩, hlegal⟩
    exact ⟨h0, by omega, hop, h1, h2, h3, hlegal⟩

/-- A word that R132 does not list reads as some header: its opcode field and its mode digits are in
the tables. -/
theorem exists_readsAs {w : Word} (hw : ¬ IllegalWord w) : ∃ h, ReadsAs w h := by
  simp only [IllegalWord, not_or, not_not] at hw
  obtain ⟨-, -, hop, hdigits, -⟩ := hw
  have hle : ∀ k ∈ [1, 2, 3], slotDigit w k ≤ 2 := by simpa using hdigits
  obtain ⟨op, hop⟩ := Opcode.mem_codes_iff.mp hop
  obtain ⟨m1, h1⟩ := Mode.exists_digit_of_le (hle 1 (by simp))
  obtain ⟨m2, h2⟩ := Mode.exists_digit_of_le (hle 2 (by simp))
  obtain ⟨m3, h3⟩ := Mode.exists_digit_of_le (hle 3 (by simp))
  exact ⟨⟨op, m1, m2, m3⟩, hop.symm, h1, h2, h3⟩

theorem ReadsAs.slotDigit_le {w : Word} {h : Header} (hw : ReadsAs w h) :
    ∀ k ∈ [1, 2, 3], slotDigit w k ≤ 2 := by
  have hle (m : Mode) : m.digit ≤ 2 := Nat.le_of_lt_succ m.digit_lt
  simpa [hw.m1, hw.m2, hw.m3] using ⟨hle h.m1, hle h.m2, hle h.m3⟩

/-- R55 (b), over the digits of the word. -/
theorem ReadsAs.unusedSlot_iff {w : Word} {h : Header} (hw : ReadsAs w h) :
    (∃ k ∈ [1, 2, 3], arityOf (opField w) < k ∧ slotDigit w k ≠ 0) ↔
      ¬ ((h.op.arity < 1 → h.m1 = .direct) ∧ (h.op.arity < 2 → h.m2 = .direct) ∧
        (h.op.arity < 3 → h.m3 = .direct)) := by
  simp only [List.mem_cons, List.not_mem_nil, or_false, exists_eq_or_imp, exists_eq_left, hw.op,
    hw.m1, hw.m2, hw.m3, arityOf_code, ne_eq, Mode.digit_eq_zero_iff, not_and_or, Classical.not_imp]

/-- R56, over the digits of the word. -/
theorem ReadsAs.immediateDestination_iff {w : Word} {h : Header} (hw : ReadsAs w h) :
    (opField w ∈ [1, 2, 7, 8] ∧ slotDigit w 3 = 1) ∨ (opField w = 3 ∧ slotDigit w 1 = 1) ↔
      h.destinationMode = some .immediate := by
  rw [hw.op, hw.m1, hw.m3, Mode.digit_eq_one_iff, Mode.digit_eq_one_iff,
    Header.destinationMode_eq_immediate_iff]

/-- Of a word that reads as a header, R132 asks the range and what `Header.Legal` asks. -/
theorem ReadsAs.not_illegalWord_iff {w : Word} {h : Header} (hw : ReadsAs w h) :
    ¬ IllegalWord w ↔ 0 ≤ w.toInt ∧ w.toInt ≤ 99999 ∧ h.Legal := by
  have hop : opField w ∈ [1, 2, 3, 4, 5, 6, 7, 8, 9, 99] :=
    Opcode.mem_codes_iff.mpr ⟨h.op, hw.op.symm⟩
  have hdigits : ¬ ∃ k ∈ [1, 2, 3], 2 < slotDigit w k := by simpa using hw.slotDigit_le
  rw [IllegalWord, hw.unusedSlot_iff, hw.immediateDestination_iff]
  simp only [hop, hdigits, not_true_eq_false, false_or, not_or, not_lt, not_not, Header.Legal,
    and_assoc, ne_eq]

/-- The words the decoder refuses are the words R132 lists. -/
theorem decodeHeader_refuses_iff {w : Word} :
    (∃ d, decodeHeader w = .error d) ↔ IllegalWord w := by
  cases hd : decodeHeader w with
  | ok h =>
    obtain ⟨h0, hle, hreads, hlegal⟩ := decodeHeader_eq_ok_iff_readsAs.mp hd
    simpa using hreads.not_illegalWord_iff.mpr ⟨h0, hle, hlegal⟩
  | error d =>
    refine iff_of_true ⟨d, rfl⟩ ?_
    by_contra hw
    obtain ⟨h, hreads⟩ := exists_readsAs hw
    obtain ⟨h0, hle, hlegal⟩ := hreads.not_illegalWord_iff.mp hw
    cases hd.symm.trans (decodeHeader_eq_ok_iff_readsAs.mpr ⟨h0, hle, hreads, hlegal⟩)

end Sys2Proof

namespace Sys2Proof.Machine

open Sys2Proof.Claims

/-! ### How a step faults -/

/-- A fetch raises `InvalidInstruction` of the word at `ip`, if the decoder refuses it. -/
theorem fetchInstr_eq_invalidInstruction_iff {s : State} {w : Word} :
    fetchInstr s = .error (.invalidInstruction w) ↔
      memRead s s.ip.toInt = .ok w ∧ ∃ d, decodeHeader w = .error d := by
  constructor
  · intro hf
    rcases bind_eq_error.mp hf with hread | ⟨v, hread, hf⟩
    · cases (memRead_eq_error.mp hread).2
    · cases hd : decodeHeader v with
      | error d =>
        simp only [hd, Except.error.injEq, Raised.invalidInstruction.injEq] at hf
        subst hf
        exact ⟨hread, d, hd⟩
      | ok h =>
        simp only [hd] at hf
        rcases bind_eq_error.mp hf with hps | ⟨_, -, hok⟩
        · obtain ⟨_, -, -, he⟩ := fetchCells_eq_error hps
          cases he
        · cases hok
  · rintro ⟨hread, d, hd⟩
    exact fetchInstr_of_illegal hread hd

theorem AddressFault.cause_ne {s : State} {e : Raised} (h : AddressFault s e) :
    e.cause ≠ .invalidInstruction := by
  rcases h with rfl | ⟨a, -, -, rfl⟩ <;> simp [Raised.cause]

theorem Raised.eq_of_cause_invalidInstruction {e : Raised} (h : e.cause = .invalidInstruction) :
    e = .invalidInstruction e.info := by
  cases e with
  | invalidInstruction w => rfl
  | addressOutOfBound | arithmeticOverflow => cases h

/-- An instruction that leaves a running engine faulted raised what an operand can raise. -/
theorem EndsIn.of_faulted {s t : State} {i : Instr} (h : EndsIn s i t) (hs : s.status = .running)
    (ht : t.status = .faulted) : ∃ e, AddressFault s e ∧ t = s.faultEntry e := by
  cases h with
  | faulted he => exact ⟨_, he, rfl⟩
  | suspended | halted => cases ht
  | stored | popped | appended | jumped | fellThrough | rebased => cases hs.symm.trans ht

/-- Settles O4. Only the fetch raises this fault, of the word at `ip`, and it does so for the
words the decoder refuses. -/
theorem invalidInstructionForExactlyTheListedWords :
    Obligations.InvalidInstructionForExactlyTheListedWords := by
  intro s hs
  refine ⟨fun k hk hip hill => ?_, fun t h ht hcause => ?_⟩
  · obtain ⟨d, hd⟩ := decodeHeader_refuses_iff.mpr hill
    exact step_of_fetch_error hs (fetchInstr_of_illegal (hip ▸ memRead_of_lt hk) hd)
  · cases step_stepsTo h with
    | idle hstop => exact absurd hs hstop
    | @fetchFault e _ hf =>
      rw [Raised.eq_of_cause_invalidInstruction hcause] at hf ⊢
      obtain ⟨hread, hrefused⟩ := fetchInstr_eq_invalidInstruction_iff.mp hf
      obtain ⟨k, hip, hk, hw⟩ := memRead_eq_ok.mp hread
      rw [hw] at hrefused ⊢
      exact ⟨k, hk, hip, decodeHeader_refuses_iff.mp hrefused, rfl⟩
    | executed _ _ hexec =>
      obtain ⟨e, hraised, rfl⟩ := (exec_endsIn hexec).of_faulted hs ht
      exact absurd hcause hraised.cause_ne

theorem Raised.cause_code_mem (e : Raised) : e.cause.code ∈ [1, 2, 3] := by
  cases e <;> simp [Raised.cause, Cause.code]

theorem State.completion?_of_faulted {s : State} (h : s.status = .faulted) :
    s.completion? = some (.fault s.cause s.info) := by
  simp [State.completion?, h]

theorem State.completion?_of_waiting {s : State} (h : s.status = .waitingForInput) :
    s.completion? = some .waitingForInput := by
  simp [State.completion?, h]

/-- A running engine comes to be faulted by fault entry alone. -/
theorem eq_faultEntry_of_step {s t : State} (hs : s.status = .running) (h : step s = .next t)
    (ht : t.status = .faulted) : ∃ e, t = s.faultEntry e := by
  obtain ⟨-, ⟨hh, -⟩ | ⟨hw, -⟩ | he⟩ := statusChangesOnlyAsListed s t h (by simp [hs, ht])
  · cases ht.symm.trans hh
  · cases ht.symm.trans hw
  · exact he

/-- Settles O38: the step ends in fault entry, whose state is stopped. -/
theorem faultsArePreciseAndLatched : Obligations.FaultsArePreciseAndLatched := by
  intro s t hs h ht
  obtain ⟨e, rfl⟩ := eq_faultEntry_of_step hs h ht
  refine ⟨e, rfl, rfl, rfl, rfl, rfl, rfl, e.cause_code_mem,
    fun u => runLoop_of_stopped (by simp), State.completion?_of_faulted ht, fun hip => ?_⟩
  obtain ⟨hfetch, hinfo, -⟩ := fetchOutsideMemoryFaults s hs hip
  rw [h] at hfetch
  rw [Host.Outcome.next.inj hfetch]
  exact ⟨rfl, hinfo⟩

/-! ### Suspension -/

theorem step_of_starved {s : State} {dst : Operand} (hs : s.status = .running) (hq : s.inq = [])
    (hf : fetchInstr s = .ok (.input dst)) : step s = .next s.suspend := by
  obtain ⟨t, ht⟩ := step_exists_next s
  obtain rfl := exec_input_of_empty hq ((step_of_fetch_ok hs hf).symm.trans ht)
  exact ht

/-- What the suspension changed is what the next run sets back (R80, R135). -/
theorem State.resume_suspend {s : State} (hs : s.status = .running) : s.suspend.resume = s := by
  simp [State.resume, State.suspend, ← hs]

/-- Settles O39: of the ways the status changes only the starved Input leads to this one. -/
theorem suspensionIsRecoverable : Obligations.SuspensionIsRecoverable := by
  intro s hs
  refine ⟨fun dst hf hq => step_of_starved hs hq hf, fun t h ht => ?_⟩
  obtain ⟨-, ⟨hh, -⟩ | ⟨-, hq, dst, hf⟩ | ⟨e, rfl⟩⟩ :=
    statusChangesOnlyAsListed s t h (by simp [hs, ht])
  · cases ht.symm.trans hh
  · obtain rfl := Host.Outcome.next.inj ((step_of_starved hs hq hf).symm.trans h)
    exact ⟨⟨dst, hf⟩, hq, rfl, fun u => runLoop_of_stopped (by simp),
      State.completion?_of_waiting ht, State.resume_suspend hs⟩
  · cases ht

/-! ### Faulted is sticky -/

/-- The run of an engine that is not live returns at once and reports what it stands in. -/
theorem transact_run_of_not_live {s t : State} {r : Reply} {c : Completion}
    (h : s.isLive = false) (hc : s.completion? = some c) :
    Transact s .run r t ↔ t = s ∧ r = .completion c := by
  rw [transact_run_iff]
  constructor
  · rintro ⟨c', hrun, hc', rfl⟩
    obtain rfl := (run_of_not_live h).mp hrun
    exact ⟨rfl, congrArg _ (Option.some.inj (hc'.symm.trans hc))⟩
  · rintro ⟨rfl, rfl⟩
    exact ⟨c, (run_of_not_live h).mpr rfl, hc, rfl⟩

/-- Settles O40, by the kinds of transaction. -/
theorem faultedIsLeftOnlyByReset : Obligations.FaultedIsLeftOnlyByReset := by
  intro s hs
  have hdead : s.isLive = false := isLive_eq_false.mpr (.inr hs)
  have hrun (r t) : Transact s .run r t ↔ t = s ∧ r = .completion (.fault s.cause s.info) :=
    transact_run_of_not_live hdead (State.completion?_of_faulted hs)
  refine ⟨step_of_stopped (by simp [hs]), hrun, fun _ => .input, .output, hdead ▸ .status, .peek,
    fun x r t h => ?_⟩
  cases h with
  | reset hnew =>
    obtain ⟨-, rfl⟩ := newInstance_eq_some.mp hnew
    exact .inr ⟨_, rfl, rfl, rfl, rfl⟩
  | run h hc =>
    obtain ⟨rfl, -⟩ := (hrun _ _).mp (.run h hc)
    exact .inl ⟨hs, rfl, rfl⟩
  | input | resetRefused | output | status | peek => exact .inl ⟨hs, rfl, rfl⟩

/-! ### Safe runs -/

theorem reaches_snoc {s t u : State} (ht : Reaches s t) (h : step t = .next u) : Reaches s u := by
  induction ht with
  | refl => exact .step h .refl
  | step hs _ ih => exact .step hs (ih h)

/-- Settles O59: the state after the one in question is reached as well, so the step to it faulted
neither in the fetch nor in the instruction. -/
theorem safeRunsFetchLegalInstructions : Obligations.SafeRunsFetchLegalInstructions := by
  intro s t hsafe hreach hrun
  obtain ⟨u, hu⟩ := step_exists_next t
  have hsafeu : u.Safe := hsafe u (reaches_snoc hreach hu)
  cases step_stepsTo hu with
  | idle hstop => exact absurd hrun hstop
  | fetchFault => exact absurd rfl hsafeu
  | executed _ hf he => exact ⟨_, u, hf, he, hsafeu⟩

/-! ### Determinism -/

/-- Settles O52, by the kinds of transaction: a run loop has one end, and every other transaction
says outright what it answers. -/
theorem transactionsAreDeterministic : Obligations.TransactionsAreDeterministic := by
  refine ⟨fun s t u x r q ht hu => ?_, fun s t p h => ?_⟩
  · cases ht with
    | reset h =>
      cases hu with
      | reset h' => exact ⟨rfl, Option.some.inj (h.symm.trans h')⟩
      | resetRefused h' => cases h.symm.trans h'
    | resetRefused h =>
      cases hu with
      | reset h' => cases h.symm.trans h'
      | resetRefused => exact ⟨rfl, rfl⟩
    | run h hc =>
      cases hu with
      | run h' hc' =>
        obtain rfl := RunLoop.unique h h'
        exact ⟨congrArg _ (Option.some.inj (hc.symm.trans hc')), rfl⟩
    | input | output | status | peek =>
      cases hu
      exact ⟨rfl, rfl⟩
  · cases h with
    | reset hnew => exact hnew

end Sys2Proof.Machine
end
